-- ==== Sys2Proof/Word.lean ====
section
/-!
DEFINITION. The word types of the block: 64-bit addresses, sizes, positions, operands and responses (R8),
8-bit bytes (R8) and the 32-bit command word (R73).
-/
namespace Sys2Proof

/-- An address, size, position, operand or response: ADDR_W = VALUE_W = 64 (R8). -/
abbrev Word := BitVec 64

/-- One byte of memory: BYTE_W = 8 (R8). -/
abbrev Byte := BitVec 8

/-- The command word CMD (R73). -/
abbrev CommandWord := BitVec 32

end Sys2Proof
end

