-- ==== Sys2Proof/Syntax.lean ====
section
/-!
DEFINITION. The commands of the block as data: byte orders (R75), width tags (R74, R100), the fields of a command
word (R73), the reasons a word is illegal (R80), the eleven commands with their static selectors (R77), and `Instr`,
one constructor per row of spec/opcode_table.json.
-/
namespace Sys2Proof

/-- A byte order (R75, R22): E = 0 is little-endian, E = 1 big-endian. -/
inductive ByteOrder where
  | le
  | be
deriving DecidableEq, Repr

/-- The twelve width tags (R74, R100 to R112). -/
inductive Tag where
  | u8
  | u16
  | u24
  | u32
  | u40
  | u48
  | u56
  | u64
  | i8
  | i16
  | i32
  | i64
deriving DecidableEq, Repr

/-- The four fields of a command word, each as the bits that stand there (R73): they may be illegal. -/
structure Fields where
  /-- `CMD[31:9]`, reserved. -/
  rsv : BitVec 23
  /-- `CMD[8]`. -/
  e : BitVec 1
  /-- `CMD[7:4]`. -/
  tag : BitVec 4
  /-- `CMD[3:0]`. -/
  op : BitVec 4
deriving DecidableEq, Repr

/-- Why a word spells no command: the five kinds of R80. -/
inductive Illegal where
  /-- A bit of `CMD[31:9]` is set (R76). -/
  | reservedBits
  /-- OP is 0x0 or 0xC to 0xF (R77). -/
  | reservedOp
  /-- A command that takes a tag carries TAG 0xA, 0xC, 0xD or 0xE (R74). -/
  | reservedTag
  /-- A command that takes no tag carries a nonzero TAG (R78). -/
  | tagNotTaken
  /-- A command that takes no byte order carries E = 1 (R75). -/
  | orderNotTaken
deriving DecidableEq, Repr

/-- The eleven commands with the static selectors they take (R77). Operands A and B are no part of a command word;
they come with it on the port (R70, R79). -/
inductive Command where
  | cget (t : Tag) (e : ByteOrder)
  | cput (t : Tag) (e : ByteOrder)
  | openr (e : ByteOrder)
  | openw (e : ByteOrder)
  | read (t : Tag)
  | write (t : Tag)
  | readb
  | writeb
  | size
  | pos
  | seek
deriving DecidableEq, Repr

/-- The instructions: one constructor per row of spec/opcode_table.json, with the E bit as its argument where the
row leaves it free. -/
inductive Instr where
  | cgetU8 (e : ByteOrder)
  | cgetU16 (e : ByteOrder)
  | cgetU24 (e : ByteOrder)
  | cgetU32 (e : ByteOrder)
  | cgetU40 (e : ByteOrder)
  | cgetU48 (e : ByteOrder)
  | cgetU56 (e : ByteOrder)
  | cgetU64 (e : ByteOrder)
  | cgetI8 (e : ByteOrder)
  | cgetI16 (e : ByteOrder)
  | cgetI32 (e : ByteOrder)
  | cgetI64 (e : ByteOrder)
  | cputU8 (e : ByteOrder)
  | cputU16 (e : ByteOrder)
  | cputU24 (e : ByteOrder)
  | cputU32 (e : ByteOrder)
  | cputU40 (e : ByteOrder)
  | cputU48 (e : ByteOrder)
  | cputU56 (e : ByteOrder)
  | cputU64 (e : ByteOrder)
  | cputI8 (e : ByteOrder)
  | cputI16 (e : ByteOrder)
  | cputI32 (e : ByteOrder)
  | cputI64 (e : ByteOrder)
  | openr (e : ByteOrder)
  | openw (e : ByteOrder)
  | readU8
  | readU16
  | readU24
  | readU32
  | readU40
  | readU48
  | readU56
  | readU64
  | readI8
  | readI16
  | readI32
  | readI64
  | writeU8
  | writeU16
  | writeU24
  | writeU32
  | writeU40
  | writeU48
  | writeU56
  | writeU64
  | writeI8
  | writeI16
  | writeI32
  | writeI64
  | readb
  | writeb
  | size
  | pos
  | seek
deriving DecidableEq, Repr

end Sys2Proof
end

