-- ==== Sys2Proof/Machine/State.lean ====
section
/-!
DEFINITION. The state of the machine as plain data: the seven registers of the block (R20), the external memory it
reaches (R50), the host's list of actions and the index into it (R29), and the outputs of the last action (R70).
-/
namespace Sys2Proof.Machine

/-- SESSION: NONE, READER or WRITER (R21). The value 3 is never held and has no constructor (U12, log 1). -/
inductive Session where
  | none
  | reader
  | writer
deriving DecidableEq, Repr

/-- CAUSE: the violation that set FATAL (R27, R190). Codes 8 to 15 are never held and have no constructor (U12,
log 1). -/
inductive Cause where
  | none
  | illegalCommand
  | noSession
  | wrongSession
  | nullPointer
  | zeroSize
  | capacity
  | seekRange
deriving DecidableEq, Repr

/-- One access at the byte-wide memory port (R51). -/
inductive Access where
  /-- `MemRead(a, 1)`. -/
  | read (a : Word)
  /-- `MemWrite(a, 1, b)`. -/
  | write (a : Word) (b : Byte)
deriving DecidableEq, Repr

/-- A buffer view: a start address and a size (R17). -/
structure View where
  base : Word
  size : Word
deriving DecidableEq, Repr

/-- A command as the host drives it on the command port: `cmd_word`, `cmd_a`, `cmd_b` (R70). -/
structure Transfer where
  word : CommandWord
  a : Word
  b : Word
deriving DecidableEq, Repr

/-- What the host and its platform do, one action at a time (R29, R70, R236, log 2). -/
inductive HostAction where
  /-- The host transfers a command (R70). -/
  | command (t : Transfer)
  /-- The host asserts `rst` between commands or in the fatal halt (R220). -/
  | reset
  /-- The host transfers a command and asserts `rst` before its response (R222, log 7). -/
  | abort (t : Transfer)
  /-- The host or another agent stores a byte in the memory (R224, R232, R235, log 6). -/
  | store (a : Word) (b : Byte)
  /-- The host ends the life of the session's buffer (R231, log 8). -/
  | endBuffer
deriving DecidableEq, Repr

/-- Why the machine has no step. -/
inductive Fault where
  /-- Raised by every step and every meaning while FATAL = 1, unless the host resets the block: the halted block is
  stuck and faulted (R194). Safe: the spec gives it no step. -/
  | halted
deriving DecidableEq, Repr

/-- What the model gives no meaning. -/
inductive Refusal where
  /-- An arm of `exec` that has no meaning yet; no arm is left so. Safe. -/
  | notModelled (mnemonic : String)
  /-- Raised by the host action `endBuffer` while a session is open: a run whose buffer is freed during its session
  is unsaid, not faulted (R231, U5). Safe (log 8). -/
  | bufferFreed
deriving DecidableEq, Repr

/-- The memory: the bytes written so far, by the block or the platform, with strictly rising addresses. -/
abbrev Memory := List Host.Cell

/-- The whole state (R20, R29, R50, R70). -/
structure State where
  /-- SESSION (R21). -/
  session : Session
  /-- ORDER (R22). -/
  order : ByteOrder
  /-- BASE (R23). -/
  base : Word
  /-- SIZE (R24). -/
  size : Word
  /-- POS (R25). -/
  pos : Word
  /-- FATAL (R26). -/
  fatal : Bool
  /-- CAUSE (R27). -/
  cause : Cause
  /-- The external memory (R50). -/
  mem : Memory
  /-- The host's list of actions (R29). -/
  program : List HostAction
  /-- The index of the host's next action, or of the command that halted the block (R29). -/
  index : Nat
  /-- `rsp_valid` and `rsp_data` after the last action (R70, R72): absent when it gave no response (log 9). -/
  rsp : Option Word
  /-- The accesses the block made during the last action, oldest first (R51, R59, log 9). -/
  accesses : List Access
  /-- The views of the sessions during which another agent wrote the buffer (R232, log 6). -/
  mutated : List View
  /-- The commands that will never give a response because a reset ended them, by index, newest first: one aborted, or
  one that failed and was then reset (R193, R220, R237, log 21). -/
  unanswered : List Nat
deriving DecidableEq, Repr

/-- The state right after reset: the registers as R36 and R220 say, no byte of memory written, and a host that has
offered nothing yet (log 11). -/
def State.reset : State :=
  { session := .none
    order := .le
    base := 0
    size := 0
    pos := 0
    fatal := false
    cause := .none
    mem := []
    program := []
    index := 0
    rsp := none
    accesses := []
    mutated := []
    unanswered := [] }

end Sys2Proof.Machine
end

