-- ==== Sys2Proof/Machine/Flags.lean ====
section
/-!
DEFINITION. The block has no flags or condition codes (R33). The only status it keeps is FATAL and CAUSE, driven on
level outputs; this file gives their codes and the ready output.
-/
namespace Sys2Proof.Machine

/-- The 2-bit encoding of SESSION (R21). -/
def Session.code : Session → BitVec 2
  | .none => 0
  | .reader => 1
  | .writer => 2

/-- The 4-bit code of a cause (R190). -/
def Cause.code : Cause → BitVec 4
  | .none => 0
  | .illegalCommand => 1
  | .noSession => 2
  | .wrongSession => 3
  | .nullPointer => 4
  | .zeroSize => 5
  | .capacity => 6
  | .seekRange => 7

/-- The level output `fatal` (R26, R70). -/
def State.fatalOut (s : State) : BitVec 1 := if s.fatal then 1 else 0

/-- The level output `cause` (R27, R70). -/
def State.causeOut (s : State) : BitVec 4 := s.cause.code

/-- The output `cmd_ready` between commands: 1 exactly while FATAL = 0 (R70, R194). -/
def State.cmdReady (s : State) : Bool := !s.fatal

end Sys2Proof.Machine
end

