-- ==== Sys2Proof/Config.lean ====
section
/-!
DEFINITION. What the spec leaves to the platform or leaves open: free values, each a constant without a body, so
that nothing can be proved of its value (93_implementation_defined.md U4, U8, U9, U10, U13).
-/
namespace Sys2Proof.Config

/-- The byte the platform put at an address the block and the host never wrote (R221, U13): any value, the same at
every read of that address until it is written (R65). Safe (log 5). -/
opaque platformByte : Nat → Byte

/-- The byte read, in the action of the given index, at the given address of a buffer that another agent wrote
during its session (R232, U4): any value. Safe (log 6). -/
opaque mutatedByte : Nat → Nat → Byte

/-- How many of its byte accesses the command of the given index had performed when reset aborted it (R35, R222,
U8): any value; the machine bounds it by the command's own number of accesses. Safe (log 7). -/
opaque abortProgress : Nat → Nat

/-- LATENCY (D29, U9): the open timing parameter. No rule depends on it and nothing in the model reads it (log 14). -/
opaque latency : Nat

/-- PLATFORM_MEMORY_MODEL (D28, U10): whether, at the action of the second index, other agents have observed the
block's writes of the action of the first. No rule of the block depends on it and nothing in the model reads it
(log 13). -/
opaque platformMemoryModel : Nat → Nat → Bool

end Sys2Proof.Config
end

