-- ==== Sys2Proof/Machine/Memory.lean ====
section
/-!
DEFINITION. The external memory: 2^64 bytes (R50), held as the list of the bytes written so far. The block fixes no
region of it and checks no permission (R62, R64), so every address exists and every access succeeds.
-/
namespace Sys2Proof.Machine

/-- The byte written last at an address, if any was. -/
def Memory.find : Memory → Nat → Option Byte
  | [], _ => none
  | (k, v) :: m, a => if k = a then some v else Memory.find m a

/-- `MemRead` of plain memory (R65): the byte written last, or the platform's byte where none was (U13, log 5). -/
def Memory.read (m : Memory) (a : Word) : Byte :=
  (Memory.find m a.toNat).getD (Config.platformByte a.toNat)

/-- The list with one byte set, addresses kept rising. -/
def Memory.put : Memory → Nat → Byte → Memory
  | [], a, b => [(a, b)]
  | (k, v) :: m, a, b =>
    if a < k then (a, b) :: (k, v) :: m
    else if a = k then (a, b) :: m
    else (k, v) :: Memory.put m a b

/-- `MemWrite` (R65). -/
def Memory.write (m : Memory) (a : Word) (b : Byte) : Memory := Memory.put m a.toNat b

/-- Canonical from a lower bound on: addresses strictly rising and inside the address space. -/
def Memory.wfFrom : Nat → Memory → Bool
  | _, [] => true
  | lo, (k, _) :: m => decide (lo ≤ k) && decide (k < 2 ^ 64) && Memory.wfFrom (k + 1) m

/-- The canonical form. No byte an entry can hold equals what an unlisted address reads as, a free value; so the
form asks only for strictly rising addresses below 2^64 (log 5). -/
def Memory.wf (m : Memory) : Bool := Memory.wfFrom 0 m

end Sys2Proof.Machine
end

