-- ==== Sys2Proof/WellFormed.lean ====
section
/-!
DEFINITION. Which command words are legal, as R78 states it: four checks on the fields of a word. This predicate is
the spec's text; the decoder (Sys2Proof/Decode.lean) is written separately and the two are compared.
-/
namespace Sys2Proof

/-- `takes_tag(op)`: CGET, CPUT, READ and WRITE (R78). -/
def Fields.takesTag (f : Fields) : Bool :=
  f.op == 0x1 || f.op == 0x2 || f.op == 0x5 || f.op == 0x6

/-- `takes_E(op)`: CGET, CPUT, OPENR and OPENW (R78). -/
def Fields.takesOrder (f : Fields) : Bool :=
  f.op == 0x1 || f.op == 0x2 || f.op == 0x3 || f.op == 0x4

/-- `legal_tag(t)`: 0x0 to 0x9, 0xB and 0xF (R78). -/
def Fields.legalTag (f : Fields) : Bool :=
  f.tag.toNat ≤ 0x9 || f.tag == 0xB || f.tag == 0xF

/-- `cmd[31:9] == 0` (R76, R78). -/
def Fields.rsvOk (f : Fields) : Bool := f.rsv == 0

/-- `cmd[3:0] in {0x1..0xB}` (R78). -/
def Fields.opOk (f : Fields) : Bool := 0x1 ≤ f.op.toNat && f.op.toNat ≤ 0xB

/-- The tag check: a legal tag where the command takes one, else TAG = 0 (R78). -/
def Fields.tagOk (f : Fields) : Bool := if f.takesTag then f.legalTag else f.tag == 0

/-- The byte-order check: E = 0 where the command takes none (R78). -/
def Fields.orderOk (f : Fields) : Bool := f.takesOrder || f.e == 0

/-- `legal(CMD)` on the fields of the word (R78). -/
def Fields.legal (f : Fields) : Bool := f.rsvOk && f.opOk && f.tagOk && f.orderOk

end Sys2Proof
end

