-- ==== Sys2Proof/Decode.lean ====
section
/-!
DEFINITION. The decoder, total on every 32-bit word and rejecting by name (R73 to R80), and after it the encoder,
written from the same tables.
-/
namespace Sys2Proof

/-- The fields of a command word (R73). -/
def fieldsOf (w : CommandWord) : Fields :=
  { rsv := w.extractLsb' 9 23
    e := w.extractLsb' 8 1
    tag := w.extractLsb' 4 4
    op := w.extractLsb' 0 4 }

/-- The width tag of a TAG code; the codes of the signed odd widths are reserved (R74, R113). -/
def tagOfCode (c : BitVec 4) : Option Tag :=
  match c.toNat with
  | 0x0 => some .u8
  | 0x1 => some .u16
  | 0x2 => some .u24
  | 0x3 => some .u32
  | 0x4 => some .u40
  | 0x5 => some .u48
  | 0x6 => some .u56
  | 0x7 => some .u64
  | 0x8 => some .i8
  | 0x9 => some .i16
  | 0xB => some .i32
  | 0xF => some .i64
  | _ => none

/-- The byte order of an E bit (R75). -/
def orderOfBit (e : BitVec 1) : ByteOrder := if e = 0 then .le else .be

/-- A command that takes a tag: the reserved codes are refused (R74, R80). -/
def withTag (f : Fields) (k : Tag → Command) : Except Illegal Command :=
  match tagOfCode f.tag with
  | some t => .ok (k t)
  | none => .error .reservedTag

/-- A command that takes no tag: TAG must be 0 (R78). -/
def withoutTag (f : Fields) (k : Except Illegal Command) : Except Illegal Command :=
  if f.tag = 0 then k else .error .tagNotTaken

/-- A command that takes no byte order: E must be 0 (R75, R78). -/
def withoutOrder (f : Fields) (k : Except Illegal Command) : Except Illegal Command :=
  if f.e = 0 then k else .error .orderNotTaken

/-- The opcode map (R77) over the fields of a word. -/
def decodeFields (f : Fields) : Except Illegal Command :=
  if f.rsv ≠ 0 then .error .reservedBits
  else match f.op.toNat with
    | 0x1 => withTag f fun t => .cget t (orderOfBit f.e)
    | 0x2 => withTag f fun t => .cput t (orderOfBit f.e)
    | 0x3 => withoutTag f (.ok (.openr (orderOfBit f.e)))
    | 0x4 => withoutTag f (.ok (.openw (orderOfBit f.e)))
    | 0x5 => withoutOrder f (withTag f .read)
    | 0x6 => withoutOrder f (withTag f .write)
    | 0x7 => withoutOrder f (withoutTag f (.ok .readb))
    | 0x8 => withoutOrder f (withoutTag f (.ok .writeb))
    | 0x9 => withoutOrder f (withoutTag f (.ok .size))
    | 0xA => withoutOrder f (withoutTag f (.ok .pos))
    | 0xB => withoutOrder f (withoutTag f (.ok .seek))
    | _ => .error .reservedOp

/-- The command an instruction stands for: its table row's mnemonic and tag (R77). -/
def Instr.command : Instr → Command
  | .cgetU8 e => .cget .u8 e
  | .cgetU16 e => .cget .u16 e
  | .cgetU24 e => .cget .u24 e
  | .cgetU32 e => .cget .u32 e
  | .cgetU40 e => .cget .u40 e
  | .cgetU48 e => .cget .u48 e
  | .cgetU56 e => .cget .u56 e
  | .cgetU64 e => .cget .u64 e
  | .cgetI8 e => .cget .i8 e
  | .cgetI16 e => .cget .i16 e
  | .cgetI32 e => .cget .i32 e
  | .cgetI64 e => .cget .i64 e
  | .cputU8 e => .cput .u8 e
  | .cputU16 e => .cput .u16 e
  | .cputU24 e => .cput .u24 e
  | .cputU32 e => .cput .u32 e
  | .cputU40 e => .cput .u40 e
  | .cputU48 e => .cput .u48 e
  | .cputU56 e => .cput .u56 e
  | .cputU64 e => .cput .u64 e
  | .cputI8 e => .cput .i8 e
  | .cputI16 e => .cput .i16 e
  | .cputI32 e => .cput .i32 e
  | .cputI64 e => .cput .i64 e
  | .openr e => .openr e
  | .openw e => .openw e
  | .readU8 => .read .u8
  | .readU16 => .read .u16
  | .readU24 => .read .u24
  | .readU32 => .read .u32
  | .readU40 => .read .u40
  | .readU48 => .read .u48
  | .readU56 => .read .u56
  | .readU64 => .read .u64
  | .readI8 => .read .i8
  | .readI16 => .read .i16
  | .readI32 => .read .i32
  | .readI64 => .read .i64
  | .writeU8 => .write .u8
  | .writeU16 => .write .u16
  | .writeU24 => .write .u24
  | .writeU32 => .write .u32
  | .writeU40 => .write .u40
  | .writeU48 => .write .u48
  | .writeU56 => .write .u56
  | .writeU64 => .write .u64
  | .writeI8 => .write .i8
  | .writeI16 => .write .i16
  | .writeI32 => .write .i32
  | .writeI64 => .write .i64
  | .readb => .readb
  | .writeb => .writeb
  | .size => .size
  | .pos => .pos
  | .seek => .seek

/-- The instruction, by table row, of a command. -/
def Command.instr : Command → Instr
  | .cget .u8 e => .cgetU8 e
  | .cget .u16 e => .cgetU16 e
  | .cget .u24 e => .cgetU24 e
  | .cget .u32 e => .cgetU32 e
  | .cget .u40 e => .cgetU40 e
  | .cget .u48 e => .cgetU48 e
  | .cget .u56 e => .cgetU56 e
  | .cget .u64 e => .cgetU64 e
  | .cget .i8 e => .cgetI8 e
  | .cget .i16 e => .cgetI16 e
  | .cget .i32 e => .cgetI32 e
  | .cget .i64 e => .cgetI64 e
  | .cput .u8 e => .cputU8 e
  | .cput .u16 e => .cputU16 e
  | .cput .u24 e => .cputU24 e
  | .cput .u32 e => .cputU32 e
  | .cput .u40 e => .cputU40 e
  | .cput .u48 e => .cputU48 e
  | .cput .u56 e => .cputU56 e
  | .cput .u64 e => .cputU64 e
  | .cput .i8 e => .cputI8 e
  | .cput .i16 e => .cputI16 e
  | .cput .i32 e => .cputI32 e
  | .cput .i64 e => .cputI64 e
  | .openr e => .openr e
  | .openw e => .openw e
  | .read .u8 => .readU8
  | .read .u16 => .readU16
  | .read .u24 => .readU24
  | .read .u32 => .readU32
  | .read .u40 => .readU40
  | .read .u48 => .readU48
  | .read .u56 => .readU56
  | .read .u64 => .readU64
  | .read .i8 => .readI8
  | .read .i16 => .readI16
  | .read .i32 => .readI32
  | .read .i64 => .readI64
  | .write .u8 => .writeU8
  | .write .u16 => .writeU16
  | .write .u24 => .writeU24
  | .write .u32 => .writeU32
  | .write .u40 => .writeU40
  | .write .u48 => .writeU48
  | .write .u56 => .writeU56
  | .write .u64 => .writeU64
  | .write .i8 => .writeI8
  | .write .i16 => .writeI16
  | .write .i32 => .writeI32
  | .write .i64 => .writeI64
  | .readb => .readb
  | .writeb => .writeb
  | .size => .size
  | .pos => .pos
  | .seek => .seek

/-- The decoder: the instruction a command word spells, or why it spells none (R78, R80). -/
def decode (w : CommandWord) : Except Illegal Instr :=
  match decodeFields (fieldsOf w) with
  | .ok c => .ok c.instr
  | .error r => .error r

/-- The decoder on a row's bits as spec/opcode_table.json numbers them: bit 0 is the command word's bit 0. A command
is one 32-bit word on the port, so no byte order enters (R70, R73, log 20). -/
def decodeTableWord (nbits w : Nat) : Option Instr :=
  let bits := w % 2 ^ nbits
  if bits < 2 ^ 32 then (decode (BitVec.ofNat 32 bits)).toOption else none

/-- The TAG code of a width tag (R74, R101 to R112). -/
def Tag.code : Tag → BitVec 4
  | .u8 => 0x0
  | .u16 => 0x1
  | .u24 => 0x2
  | .u32 => 0x3
  | .u40 => 0x4
  | .u48 => 0x5
  | .u56 => 0x6
  | .u64 => 0x7
  | .i8 => 0x8
  | .i16 => 0x9
  | .i32 => 0xB
  | .i64 => 0xF

/-- The E bit of a byte order (R75). -/
def ByteOrder.bit : ByteOrder → BitVec 1
  | .le => 0
  | .be => 1

/-- A command word from its three fields, the reserved bits 0: `{RSV, E, TAG, OP}` (R73). -/
def wordOf (op tag : BitVec 4) (e : BitVec 1) : CommandWord := (0 : BitVec 23) ++ e ++ tag ++ op

/-- The word of a command (R77). -/
def Command.word : Command → CommandWord
  | .cget t e => wordOf 0x1 t.code e.bit
  | .cput t e => wordOf 0x2 t.code e.bit
  | .openr e => wordOf 0x3 0 e.bit
  | .openw e => wordOf 0x4 0 e.bit
  | .read t => wordOf 0x5 t.code 0
  | .write t => wordOf 0x6 t.code 0
  | .readb => wordOf 0x7 0 0
  | .writeb => wordOf 0x8 0 0
  | .size => wordOf 0x9 0 0
  | .pos => wordOf 0xA 0 0
  | .seek => wordOf 0xB 0 0

/-- The encoder: the one word that spells an instruction (R73, R77). -/
def encode (i : Instr) : CommandWord := i.command.word

/-- Well-formedness of an instruction: the fields of its word pass every check of R78. -/
def Instr.wellFormed (i : Instr) : Bool := (fieldsOf (encode i)).legal

end Sys2Proof
end

