-- ==== Sys2Proof/Machine/Operands.lean ====
section
/-!
DEFINITION. The operand forms: operands A and B of the command on the port (R79), the descriptors of the width tags
(R100), the lane function (R12) and the pure codec functions (R115, R116).
-/
namespace Sys2Proof

/-- `L(T)`: the byte length, `TAG[2:0] + 1` (R74, R100). -/
def Tag.byteLen : Tag → Nat
  | .u8 => 1
  | .u16 => 2
  | .u24 => 3
  | .u32 => 4
  | .u40 => 5
  | .u48 => 6
  | .u56 => 7
  | .u64 => 8
  | .i8 => 1
  | .i16 => 2
  | .i32 => 4
  | .i64 => 8

/-- `S(T)`: signedness, `TAG[3]` (R74, R100). -/
def Tag.signed : Tag → Bool
  | .u8 => false
  | .u16 => false
  | .u24 => false
  | .u32 => false
  | .u40 => false
  | .u48 => false
  | .u56 => false
  | .u64 => false
  | .i8 => true
  | .i16 => true
  | .i32 => true
  | .i64 => true

end Sys2Proof

namespace Sys2Proof.Machine

/-- `lane(E, L, i)`: the lowest bit of the value byte that the byte at offset i holds (R12). -/
def lane (e : ByteOrder) (len i : Nat) : Nat :=
  match e with
  | .le => 8 * i
  | .be => 8 * (len - 1 - i)

/-- The bytes from offset `i` on, each placed in its lane (R115). -/
def assembleFrom (e : ByteOrder) (len : Nat) : Nat → List Byte → Word
  | _, [] => 0
  | i, b :: bs => (b.setWidth 64 <<< lane e len i) ||| assembleFrom e len (i + 1) bs

/-- How a pattern is spelled on the response: the low 8L bits, sign-extended for a signed tag and zero-extended
otherwise (R101 to R113, D14). -/
def spell (t : Tag) (p : Word) : Word :=
  if t.signed then (p.setWidth (8 * t.byteLen)).signExtend 64 else (p.setWidth (8 * t.byteLen)).setWidth 64

/-- `decode(E, T, b)` (R115). -/
def decodeBytes (e : ByteOrder) (t : Tag) (bs : List Byte) : Word := spell t (assembleFrom e t.byteLen 0 bs)

/-- `encode(E, T, v)` (R116): byte i is the value's byte in lane i; only the low 8L bits are used (D15). -/
def encodeBytes (e : ByteOrder) (t : Tag) (v : Word) : List Byte :=
  (List.range t.byteLen).map fun i => v.extractLsb' (lane e t.byteLen i) 8

/-- The command on the port: that of the host's action at the index (R29, R70). Where no command stands there, no
step reads it (log 12). -/
def State.transfer (s : State) : Transfer :=
  match s.program[s.index]? with
  | some (.command t) => t
  | some (.abort t) => t
  | _ => { word := 0, a := 0, b := 0 }

/-- Operand A: a 64-bit address or unsigned position, used as given (R79). -/
def State.operandA (s : State) : Word := s.transfer.a

/-- Operand B: a value, size or length, used as given (R79). -/
def State.operandB (s : State) : Word := s.transfer.b

/-- `SIZE - POS`, which never underflows (R30, R150, R185). In states that break R30 it is 0 (log 10). -/
def State.remaining (s : State) : Nat := s.size.toNat - s.pos.toNat

/-- The slice address `(BASE + POS) mod 2^64` (R63, R130, R150). -/
def State.cursor (s : State) : Word := s.base + s.pos

end Sys2Proof.Machine
end

