-- ==== Sys2Proof/Machine/Ops.lean ====
section
/-!
DEFINITION. The operations every command is made of: byte accesses at the memory port in the order of R59, the
response (R72), entry into the fatal halt (R193) and reset, the only exit from it (R220), the session check (R196),
and the frame of a command (R71, R195).
-/
namespace Sys2Proof.Machine

/-- The outcome of a command or a step. -/
abbrev Result := Host.Outcome State Fault Refusal

/-! ### Accesses -/

/-- Whether an address holds a byte of a view; a view may cross the top of the address space (R53, R63). -/
def View.contains (v : View) (a : Word) : Bool := decide ((a - v.base).toNat < v.size.toNat)

/-- The session's buffer view (R17). -/
def State.view (s : State) : View := { base := s.base, size := s.size }

/-- Whether an address holds a byte of the open session's buffer. -/
def State.inBuffer (s : State) (a : Word) : Bool := decide (s.session ≠ .none) && s.view.contains a

/-- Whether an address lies in a buffer that another agent wrote during its session (R232). -/
def State.unsettled (s : State) (a : Word) : Bool := s.mutated.any (·.contains a)

/-- What a read of one byte gives: the memory's byte (R65), or any value in a buffer that another agent wrote during
its session (R232, U4, log 6). -/
def State.byteAt (s : State) (a : Word) : Byte :=
  if s.unsettled a then Config.mutatedByte s.index a.toNat else s.mem.read a

/-- `MemRead(a, 1)` (R11, R51): the byte, and the state with the access made. -/
def State.memRead (s : State) (a : Word) : Byte × State :=
  (s.byteAt a, { s with accesses := s.accesses ++ [.read a] })

/-- `MemWrite(a, 1, b)` (R11, R51). -/
def State.memWrite (s : State) (a : Word) (b : Byte) : State :=
  { s with mem := s.mem.write a b, accesses := s.accesses ++ [.write a b] }

/-- The reads of a get, in ascending offset order (R59, R120). -/
def State.readSlice (s : State) : Nat → Word → List Byte × State
  | 0, _ => ([], s)
  | n + 1, a =>
    let r := s.memRead a
    let rest := State.readSlice r.2 n (a + 1#64)
    (r.1 :: rest.1, rest.2)

/-- The writes of a put, in ascending offset order (R59, R125). -/
def State.writeSlice (s : State) : List Byte → Word → State
  | [], _ => s
  | b :: bs, a => State.writeSlice (s.memWrite a b) bs (a + 1#64)

/-- The bulk copy of n bytes: byte i is read and then written before byte i + 1 is read (R59, R160, R165). -/
def State.copySlice (s : State) : Nat → Word → Word → State
  | 0, _, _ => s
  | n + 1, src, dst =>
    let r := s.memRead src
    State.copySlice (r.2.memWrite dst r.1) n (src + 1#64) (dst + 1#64)

/-- The first `k` accesses of the bulk copy of n bytes, which has 2n of them (R35, R59, R222). -/
def State.copyPrefix (s : State) (k n : Nat) (src dst : Word) : State :=
  let done := min k (2 * n)
  let copied := s.copySlice (done / 2) src dst
  if done % 2 = 1 then (copied.memRead (src + BitVec.ofNat 64 (done / 2))).2 else copied

/-! ### Response, fatal halt, reset -/

/-- `respond(v)` (R11, R72): the one response of a completed command; the index advances by one (R29). -/
def State.respond (s : State) (v : Word) : State := { s with rsp := some v, index := s.index + 1 }

/-- `raise Fatal(c)` (R11, R193): FATAL and CAUSE are written and nothing else; there is no response, and the index
does not advance (R29). -/
def State.raiseFatal (s : State) (c : Cause) : State := { s with fatal := true, cause := c, rsp := none }

/-- What reset does to the block (R220). The memory and what agents did to it stay (R221); no response is given. -/
def State.resetBlock (s : State) : State :=
  { s with
    session := .none
    order := .le
    base := 0
    size := 0
    pos := 0
    fatal := false
    cause := .none
    rsp := none }

/-- The outputs before an action: no response and no access yet (R28, R70, log 9). -/
def State.accept (s : State) : State := { s with rsp := none, accesses := [] }

/-! ### Checks -/

/-- What session a stream command needs (R196). -/
inductive Need where
  | reader
  | writer
  | either
deriving DecidableEq, Repr

/-- The session check (R196): NO_SESSION, then WRONG_SESSION. -/
def sessionCheck (need : Need) (s : State) : Option Cause :=
  match s.session, need with
  | .none, _ => some .noSession
  | .reader, .writer => some .wrongSession
  | .writer, .reader => some .wrongSession
  | .reader, _ => none
  | .writer, _ => none

/-- The codec's null check on the slice's start address alone (R130). -/
def nullCheck (a : Word) : Option Cause := if a = 0 then some .nullPointer else none

/-- The capacity check of an advance by n: `SIZE - POS ≥ n` (R185). -/
def capacityCheck (n : Nat) (s : State) : Option Cause := if s.remaining < n then some .capacity else none

/-- The frame of every command: it is accepted only while FATAL = 0 (R71, R194), all its checks come first, the first
that fails gives the cause (R195), and otherwise it has its effect in full. -/
def runChecked (check : State → Option Cause) (effect : State → State) (s : State) : Result :=
  if s.fatal then .fault .halted
  else match check s with
    | some c => .next (s.raiseFatal c)
    | none => .next (effect s)

end Sys2Proof.Machine
end

