-- ==== Sys2Proof/Machine/Stream.lean ====
section
/-!
DEFINITION. Typed access through the cursor: READ and WRITE (R150, R155).
-/
namespace Sys2Proof.Machine

/-- The checks of READ and WRITE: session, CAPACITY, then NULL_POINTER on the slice address (R150, R155, R195). -/
def typedCheck (need : Need) (t : Tag) (s : State) : Option Cause :=
  (sessionCheck need s).or ((capacityCheck t.byteLen s).or (nullCheck s.cursor))

/-- `POS <- POS + n` (R31). -/
def State.advance (s : State) (n : Word) : State := { s with pos := s.pos + n }

/-- The effect of READ (R150): L reads at the cursor, POS advanced by L, the value in ORDER as the response. -/
def readEffect (t : Tag) (s : State) : State :=
  let r := s.readSlice t.byteLen s.cursor
  (r.2.advance (BitVec.ofNat 64 t.byteLen)).respond (decodeBytes s.order t r.1)

/-- The effect of WRITE (R155): L writes at the cursor in ORDER, POS advanced by L, the response 0. -/
def writeEffect (t : Tag) (s : State) : State :=
  ((s.writeSlice (encodeBytes s.order t s.operandB) s.cursor).advance (BitVec.ofNat 64 t.byteLen)).respond 0

/-- READ for a tag (R150). -/
def readTyped (t : Tag) (s : State) : Result := runChecked (typedCheck .reader t) (readEffect t) s

/-- WRITE for a tag (R155). -/
def writeTyped (t : Tag) (s : State) : Result := runChecked (typedCheck .writer t) (writeEffect t) s

/-- `READ.u8` (R150, tag R101). -/
def execReadU8 (s : State) : Result := readTyped .u8 s

/-- `READ.u16` (R150, tag R102). -/
def execReadU16 (s : State) : Result := readTyped .u16 s

/-- `READ.u24` (R150, tag R103). -/
def execReadU24 (s : State) : Result := readTyped .u24 s

/-- `READ.u32` (R150, tag R104). -/
def execReadU32 (s : State) : Result := readTyped .u32 s

/-- `READ.u40` (R150, tag R105). -/
def execReadU40 (s : State) : Result := readTyped .u40 s

/-- `READ.u48` (R150, tag R106). -/
def execReadU48 (s : State) : Result := readTyped .u48 s

/-- `READ.u56` (R150, tag R107). -/
def execReadU56 (s : State) : Result := readTyped .u56 s

/-- `READ.u64` (R150, tag R108). -/
def execReadU64 (s : State) : Result := readTyped .u64 s

/-- `READ.i8` (R150, tag R109). -/
def execReadI8 (s : State) : Result := readTyped .i8 s

/-- `READ.i16` (R150, tag R110). -/
def execReadI16 (s : State) : Result := readTyped .i16 s

/-- `READ.i32` (R150, tag R111). -/
def execReadI32 (s : State) : Result := readTyped .i32 s

/-- `READ.i64` (R150, tag R112). -/
def execReadI64 (s : State) : Result := readTyped .i64 s

/-- `WRITE.u8` (R155, tag R101). -/
def execWriteU8 (s : State) : Result := writeTyped .u8 s

/-- `WRITE.u16` (R155, tag R102). -/
def execWriteU16 (s : State) : Result := writeTyped .u16 s

/-- `WRITE.u24` (R155, tag R103). -/
def execWriteU24 (s : State) : Result := writeTyped .u24 s

/-- `WRITE.u32` (R155, tag R104). -/
def execWriteU32 (s : State) : Result := writeTyped .u32 s

/-- `WRITE.u40` (R155, tag R105). -/
def execWriteU40 (s : State) : Result := writeTyped .u40 s

/-- `WRITE.u48` (R155, tag R106). -/
def execWriteU48 (s : State) : Result := writeTyped .u48 s

/-- `WRITE.u56` (R155, tag R107). -/
def execWriteU56 (s : State) : Result := writeTyped .u56 s

/-- `WRITE.u64` (R155, tag R108). -/
def execWriteU64 (s : State) : Result := writeTyped .u64 s

/-- `WRITE.i8` (R155, tag R109). -/
def execWriteI8 (s : State) : Result := writeTyped .i8 s

/-- `WRITE.i16` (R155, tag R110). -/
def execWriteI16 (s : State) : Result := writeTyped .i16 s

/-- `WRITE.i32` (R155, tag R111). -/
def execWriteI32 (s : State) : Result := writeTyped .i32 s

/-- `WRITE.i64` (R155, tag R112). -/
def execWriteI64 (s : State) : Result := writeTyped .i64 s

end Sys2Proof.Machine
end

