-- ==== Sys2Proof/Machine/Bulk.lean ====
section
/-!
DEFINITION. Bulk copy through the cursor: READB and WRITEB (R160, R165).
-/
namespace Sys2Proof.Machine

/-- The checks of READB and WRITEB: session, then CAPACITY for n = B. No null check is made (R160, R165, D22). -/
def bulkCheck (need : Need) (s : State) : Option Cause :=
  (sessionCheck need s).or (capacityCheck s.operandB.toNat s)

/-- The effect of READB (R160): n bytes copied from the cursor to A, POS advanced by n, the response 0. -/
def readbEffect (s : State) : State :=
  ((s.copySlice s.operandB.toNat s.cursor s.operandA).advance s.operandB).respond 0

/-- The effect of WRITEB (R165): n bytes copied from A to the cursor, POS advanced by n, the response 0. -/
def writebEffect (s : State) : State :=
  ((s.copySlice s.operandB.toNat s.operandA s.cursor).advance s.operandB).respond 0

/-- READB (R160). -/
def readBulk (s : State) : Result := runChecked (bulkCheck .reader) readbEffect s

/-- WRITEB (R165). -/
def writeBulk (s : State) : Result := runChecked (bulkCheck .writer) writebEffect s

/-- `READB` (R160). -/
def execReadb (s : State) : Result := readBulk s

/-- `WRITEB` (R165). -/
def execWriteb (s : State) : Result := writeBulk s

end Sys2Proof.Machine
end

