-- ==== Sys2Proof/Machine/Codec.lean ====
section
/-!
DEFINITION. The codec commands CGET and CPUT (R120, R125). They make no session check and neither read nor write a
register (D21).
-/
namespace Sys2Proof.Machine

/-- The check of CGET and CPUT: the slice address A is not null (R120, R125, R195). -/
def codecCheck (s : State) : Option Cause := nullCheck s.operandA

/-- The effect of CGET (R120): L reads from A on, and the value as the response. -/
def cgetEffect (t : Tag) (e : ByteOrder) (s : State) : State :=
  let r := s.readSlice t.byteLen s.operandA
  r.2.respond (decodeBytes e t r.1)

/-- The effect of CPUT (R125): L writes from A on, and the response 0. -/
def cputEffect (t : Tag) (e : ByteOrder) (s : State) : State :=
  (s.writeSlice (encodeBytes e t s.operandB) s.operandA).respond 0

/-- CGET for a tag and a byte order (R120). -/
def cget (t : Tag) (e : ByteOrder) (s : State) : Result := runChecked codecCheck (cgetEffect t e) s

/-- CPUT for a tag and a byte order (R125). -/
def cput (t : Tag) (e : ByteOrder) (s : State) : Result := runChecked codecCheck (cputEffect t e) s

/-- `CGET.u8` (R120, tag R101). -/
def execCgetU8 (e : ByteOrder) (s : State) : Result := cget .u8 e s

/-- `CGET.u16` (R120, tag R102). -/
def execCgetU16 (e : ByteOrder) (s : State) : Result := cget .u16 e s

/-- `CGET.u24` (R120, tag R103). -/
def execCgetU24 (e : ByteOrder) (s : State) : Result := cget .u24 e s

/-- `CGET.u32` (R120, tag R104). -/
def execCgetU32 (e : ByteOrder) (s : State) : Result := cget .u32 e s

/-- `CGET.u40` (R120, tag R105). -/
def execCgetU40 (e : ByteOrder) (s : State) : Result := cget .u40 e s

/-- `CGET.u48` (R120, tag R106). -/
def execCgetU48 (e : ByteOrder) (s : State) : Result := cget .u48 e s

/-- `CGET.u56` (R120, tag R107). -/
def execCgetU56 (e : ByteOrder) (s : State) : Result := cget .u56 e s

/-- `CGET.u64` (R120, tag R108). -/
def execCgetU64 (e : ByteOrder) (s : State) : Result := cget .u64 e s

/-- `CGET.i8` (R120, tag R109). -/
def execCgetI8 (e : ByteOrder) (s : State) : Result := cget .i8 e s

/-- `CGET.i16` (R120, tag R110). -/
def execCgetI16 (e : ByteOrder) (s : State) : Result := cget .i16 e s

/-- `CGET.i32` (R120, tag R111). -/
def execCgetI32 (e : ByteOrder) (s : State) : Result := cget .i32 e s

/-- `CGET.i64` (R120, tag R112). -/
def execCgetI64 (e : ByteOrder) (s : State) : Result := cget .i64 e s

/-- `CPUT.u8` (R125, tag R101). -/
def execCputU8 (e : ByteOrder) (s : State) : Result := cput .u8 e s

/-- `CPUT.u16` (R125, tag R102). -/
def execCputU16 (e : ByteOrder) (s : State) : Result := cput .u16 e s

/-- `CPUT.u24` (R125, tag R103). -/
def execCputU24 (e : ByteOrder) (s : State) : Result := cput .u24 e s

/-- `CPUT.u32` (R125, tag R104). -/
def execCputU32 (e : ByteOrder) (s : State) : Result := cput .u32 e s

/-- `CPUT.u40` (R125, tag R105). -/
def execCputU40 (e : ByteOrder) (s : State) : Result := cput .u40 e s

/-- `CPUT.u48` (R125, tag R106). -/
def execCputU48 (e : ByteOrder) (s : State) : Result := cput .u48 e s

/-- `CPUT.u56` (R125, tag R107). -/
def execCputU56 (e : ByteOrder) (s : State) : Result := cput .u56 e s

/-- `CPUT.u64` (R125, tag R108). -/
def execCputU64 (e : ByteOrder) (s : State) : Result := cput .u64 e s

/-- `CPUT.i8` (R125, tag R109). -/
def execCputI8 (e : ByteOrder) (s : State) : Result := cput .i8 e s

/-- `CPUT.i16` (R125, tag R110). -/
def execCputI16 (e : ByteOrder) (s : State) : Result := cput .i16 e s

/-- `CPUT.i32` (R125, tag R111). -/
def execCputI32 (e : ByteOrder) (s : State) : Result := cput .i32 e s

/-- `CPUT.i64` (R125, tag R112). -/
def execCputI64 (e : ByteOrder) (s : State) : Result := cput .i64 e s

end Sys2Proof.Machine
end

