-- ==== Sys2Proof/Machine/Query.lean ====
section
/-!
DEFINITION. Queries and repositioning: SIZE, POS and SEEK (R170, R172, R175).
-/
namespace Sys2Proof.Machine

/-- The check of SIZE and POS: a session of either kind (R170, R172, R196). -/
def queryCheck (s : State) : Option Cause := sessionCheck .either s

/-- The checks of SEEK: session, then SEEK_RANGE, an unsigned comparison of A with SIZE (R175, R195). -/
def seekCheck (s : State) : Option Cause :=
  (sessionCheck .either s).or (if s.size.toNat < s.operandA.toNat then some .seekRange else none)

/-- The effect of SIZE (R170). -/
def sizeEffect (s : State) : State := s.respond s.size

/-- The effect of POS (R172). -/
def posEffect (s : State) : State := s.respond s.pos

/-- The effect of SEEK (R175): POS becomes A. -/
def seekEffect (s : State) : State := { s with pos := s.operandA }.respond 0

/-- SIZE (R170). -/
def querySize (s : State) : Result := runChecked queryCheck sizeEffect s

/-- POS (R172). -/
def queryPos (s : State) : Result := runChecked queryCheck posEffect s

/-- SEEK (R175). -/
def seekTo (s : State) : Result := runChecked seekCheck seekEffect s

/-- `SIZE` (R170). -/
def execSize (s : State) : Result := querySize s

/-- `POS` (R172). -/
def execPos (s : State) : Result := queryPos s

/-- `SEEK` (R175). -/
def execSeek (s : State) : Result := seekTo s

end Sys2Proof.Machine
end

