-- ==== Sys2Proof/Machine/Session.lean ====
section
/-!
DEFINITION. Construction of a session: OPENR and OPENW (R140, R145).
-/
namespace Sys2Proof.Machine

/-- The checks of OPENR and OPENW: NULL_POINTER on A, then ZERO_SIZE on B (R140, R195). -/
def openCheck (s : State) : Option Cause :=
  (nullCheck s.operandA).or (if s.operandB = 0 then some .zeroSize else none)

/-- The effect of OPENR and OPENW: any open session is replaced, the cursor starts at 0 (R140, R145). -/
def openEffect (kind : Session) (e : ByteOrder) (s : State) : State :=
  { s with session := kind, order := e, base := s.operandA, size := s.operandB, pos := 0 }.respond 0

/-- OPENR and OPENW, by the session they open (R140, R145). -/
def openSession (kind : Session) (e : ByteOrder) (s : State) : Result :=
  runChecked openCheck (openEffect kind e) s

/-- `OPENR` (R140). -/
def execOpenr (e : ByteOrder) (s : State) : Result := openSession .reader e s

/-- `OPENW` (R145). -/
def execOpenw (e : ByteOrder) (s : State) : Result := openSession .writer e s

end Sys2Proof.Machine
end

