-- ==== Sys2Proof/Machine/Dispatch.lean ====
section
/-!
DEFINITION. One arm per instruction: each calls the meaning of its own row of spec/opcode_table.json.
-/
namespace Sys2Proof.Machine

def exec (i : Instr) (s : State) : Host.Outcome State Fault Refusal :=
  match i with
  | .cgetU8 e => Sys2Proof.Machine.execCgetU8 e s
  | .cgetU16 e => Sys2Proof.Machine.execCgetU16 e s
  | .cgetU24 e => Sys2Proof.Machine.execCgetU24 e s
  | .cgetU32 e => Sys2Proof.Machine.execCgetU32 e s
  | .cgetU40 e => Sys2Proof.Machine.execCgetU40 e s
  | .cgetU48 e => Sys2Proof.Machine.execCgetU48 e s
  | .cgetU56 e => Sys2Proof.Machine.execCgetU56 e s
  | .cgetU64 e => Sys2Proof.Machine.execCgetU64 e s
  | .cgetI8 e => Sys2Proof.Machine.execCgetI8 e s
  | .cgetI16 e => Sys2Proof.Machine.execCgetI16 e s
  | .cgetI32 e => Sys2Proof.Machine.execCgetI32 e s
  | .cgetI64 e => Sys2Proof.Machine.execCgetI64 e s
  | .cputU8 e => Sys2Proof.Machine.execCputU8 e s
  | .cputU16 e => Sys2Proof.Machine.execCputU16 e s
  | .cputU24 e => Sys2Proof.Machine.execCputU24 e s
  | .cputU32 e => Sys2Proof.Machine.execCputU32 e s
  | .cputU40 e => Sys2Proof.Machine.execCputU40 e s
  | .cputU48 e => Sys2Proof.Machine.execCputU48 e s
  | .cputU56 e => Sys2Proof.Machine.execCputU56 e s
  | .cputU64 e => Sys2Proof.Machine.execCputU64 e s
  | .cputI8 e => Sys2Proof.Machine.execCputI8 e s
  | .cputI16 e => Sys2Proof.Machine.execCputI16 e s
  | .cputI32 e => Sys2Proof.Machine.execCputI32 e s
  | .cputI64 e => Sys2Proof.Machine.execCputI64 e s
  | .openr e => Sys2Proof.Machine.execOpenr e s
  | .openw e => Sys2Proof.Machine.execOpenw e s
  | .readU8 => Sys2Proof.Machine.execReadU8 s
  | .readU16 => Sys2Proof.Machine.execReadU16 s
  | .readU24 => Sys2Proof.Machine.execReadU24 s
  | .readU32 => Sys2Proof.Machine.execReadU32 s
  | .readU40 => Sys2Proof.Machine.execReadU40 s
  | .readU48 => Sys2Proof.Machine.execReadU48 s
  | .readU56 => Sys2Proof.Machine.execReadU56 s
  | .readU64 => Sys2Proof.Machine.execReadU64 s
  | .readI8 => Sys2Proof.Machine.execReadI8 s
  | .readI16 => Sys2Proof.Machine.execReadI16 s
  | .readI32 => Sys2Proof.Machine.execReadI32 s
  | .readI64 => Sys2Proof.Machine.execReadI64 s
  | .writeU8 => Sys2Proof.Machine.execWriteU8 s
  | .writeU16 => Sys2Proof.Machine.execWriteU16 s
  | .writeU24 => Sys2Proof.Machine.execWriteU24 s
  | .writeU32 => Sys2Proof.Machine.execWriteU32 s
  | .writeU40 => Sys2Proof.Machine.execWriteU40 s
  | .writeU48 => Sys2Proof.Machine.execWriteU48 s
  | .writeU56 => Sys2Proof.Machine.execWriteU56 s
  | .writeU64 => Sys2Proof.Machine.execWriteU64 s
  | .writeI8 => Sys2Proof.Machine.execWriteI8 s
  | .writeI16 => Sys2Proof.Machine.execWriteI16 s
  | .writeI32 => Sys2Proof.Machine.execWriteI32 s
  | .writeI64 => Sys2Proof.Machine.execWriteI64 s
  | .readb => Sys2Proof.Machine.execReadb s
  | .writeb => Sys2Proof.Machine.execWriteb s
  | .size => Sys2Proof.Machine.execSize s
  | .pos => Sys2Proof.Machine.execPos s
  | .seek => Sys2Proof.Machine.execSeek s

end Sys2Proof.Machine
end

