-- ==== Sys2Proof/Machine/HostPort.lean ====
section
/-!
DEFINITION. The host's side of a step: which action comes next (R29, R194), the command word it carries decoded
(R195), reset (R220), reset during a command (R222), the platform's stores (R232) and the end of a buffer's life
(R231).
-/
namespace Sys2Proof.Machine

/-- All checks of a legal command, in the order of R195. -/
def checkOf : Command → State → Option Cause
  | .cget _ _ => codecCheck
  | .cput _ _ => codecCheck
  | .openr _ => openCheck
  | .openw _ => openCheck
  | .read t => typedCheck .reader t
  | .write t => typedCheck .writer t
  | .readb => bulkCheck .reader
  | .writeb => bulkCheck .writer
  | .size => queryCheck
  | .pos => queryCheck
  | .seek => seekCheck

/-- The first `k` byte accesses of a command whose checks pass, in its access order (R35, R59, R222). -/
def partialAccesses (c : Command) (k : Nat) (s : State) : State :=
  match c with
  | .cget t _ => (s.readSlice (min k t.byteLen) s.operandA).2
  | .cput t e => s.writeSlice ((encodeBytes e t s.operandB).take k) s.operandA
  | .read t => (s.readSlice (min k t.byteLen) s.cursor).2
  | .write t => s.writeSlice ((encodeBytes s.order t s.operandB).take k) s.cursor
  | .readb => s.copyPrefix k s.operandB.toNat s.cursor s.operandA
  | .writeb => s.copyPrefix k s.operandB.toNat s.operandA s.cursor
  | .openr _ => s
  | .openw _ => s
  | .size => s
  | .pos => s
  | .seek => s

/-- A command aborted after `k` of its accesses: none where its word is illegal or a check fails (R52, R195). -/
def abortedAfter (t : Transfer) (k : Nat) (s : State) : State :=
  match decode t.word with
  | .error _ => s
  | .ok i =>
    match checkOf i.command s with
    | some _ => s
    | none => partialAccesses i.command k s

/-- Reset during a command (R222): a prefix of its accesses, of any length, then reset; no other state write of the
command is made and no response is given, which is recorded (log 7, log 21). -/
def State.abortCommand (s : State) (t : Transfer) : State :=
  { (abortedAfter t (Config.abortProgress s.index) s).resetBlock with
    index := s.index + 1
    unanswered := s.index :: s.unanswered }

/-- Reset between commands, or out of the fatal halt, where the index stands at the command that failed and the
reset is the action after it (R29, R194, R220, log 2); that command gave no response, which is recorded (R193,
log 21). -/
def State.takeReset (s : State) : State :=
  { s.resetBlock with
    index := s.index + (if s.fatal then 2 else 1)
    unanswered := if s.fatal then s.index :: s.unanswered else s.unanswered }

/-- A byte stored by the host or another agent. Inside an open session's buffer it breaks the duty of R232, and the
view counts as mutated from then on (U4, log 6). -/
def State.platformStore (s : State) (a : Word) (b : Byte) : State :=
  { s with
    mem := s.mem.write a b
    mutated := if s.inBuffer a then s.view :: s.mutated else s.mutated
    index := s.index + 1 }

/-- The host ends the buffer's life: during a session the run is unsaid (R231, U5, log 8); with no session open no
duty is broken. -/
def State.endBufferLife (s : State) : Result :=
  if s.session = .none then .next { s with index := s.index + 1 } else .refused .bufferFreed

/-- What a step finds. -/
inductive Fetch where
  /-- FATAL = 1 and the host does not reset (R194). -/
  | halted
  /-- The host offers nothing (R206, log 3). -/
  | idle
  /-- A legal command word, decoded (R78). -/
  | run (i : Instr)
  /-- A word that spells no command, and why (R80). -/
  | illegal (r : Illegal)
  | reset
  | abort (t : Transfer)
  | store (a : Word) (b : Byte)
  | endBuffer
deriving DecidableEq, Repr

/-- The next action of the host. While FATAL = 1 only a reset after the failed command counts: every other action is
not accepted (R70, R194). -/
def State.fetch (s : State) : Fetch :=
  if s.fatal then
    match s.program[s.index + 1]? with
    | some .reset => .reset
    | _ => .halted
  else
    match s.program[s.index]? with
    | none => .idle
    | some (.command t) =>
      match decode t.word with
      | .ok i => .run i
      | .error r => .illegal r
    | some .reset => .reset
    | some (.abort t) => .abort t
    | some (.store a b) => .store a b
    | some .endBuffer => .endBuffer

/-- The program with one command word at the index, its operands those of the command that stands there, else 0;
places before the index that no action fills are filled with resets, which no step reaches. -/
def programWith (s : State) (w : CommandWord) : List HostAction :=
  s.program.take s.index ++ List.replicate (s.index - s.program.length) .reset ++
    .command { s.transfer with word := w } :: s.program.drop (s.index + 1)

end Sys2Proof.Machine
end

