-- ==== Sys2Proof/Machine/Step.lean ====
section
/-!
DEFINITION. One step: one action of the host (R29, R71), with the outputs of the action before it cleared (R28).
-/
namespace Sys2Proof.Machine

/-- One step of the machine: the host's next action, in full. -/
def step (s : State) : Host.Outcome State Fault Refusal :=
  match s.fetch with
  | .halted => .fault .halted
  | .idle => .next s.accept
  | .run i => exec i s.accept
  | .illegal _ => .next (s.accept.raiseFatal .illegalCommand)
  | .reset => .next s.accept.takeReset
  | .abort t => .next (s.accept.abortCommand t)
  | .store a b => .next (s.accept.platformStore a b)
  | .endBuffer => s.accept.endBufferLife

/-- The state whose next step is the command of the given bits: the host's action at the index is that command
(R29, log 11). FATAL is left as it is: a halted block accepts no command (R194). -/
def State.withFetchWord (s : State) (nbits w : Nat) : State :=
  { s with program := programWith s (BitVec.ofNat 32 (w % 2 ^ nbits)) }

end Sys2Proof.Machine
end

