-- ==== Sys2Proof/Machine/Assembly.lean ====
section
/-!
DEFINITION. The assembler of R90 on lines already split into their parts: which parts each mnemonic takes, and the
command a line assembles to. Spelling (letter case, decimal or hex digits) is left out (log 17).
-/
namespace Sys2Proof.Machine

/-- The eleven mnemonics of R90. -/
inductive Mnemonic where
  | cget
  | cput
  | openr
  | openw
  | read
  | write
  | readb
  | writeb
  | size
  | pos
  | seek
deriving DecidableEq, Repr

/-- One line: a mnemonic with the suffix, tag and operands written beside it (R90). -/
structure AsmLine where
  mnemonic : Mnemonic
  suffix : Option ByteOrder
  tag : Option Tag
  a : Option Int
  b : Option Int
deriving DecidableEq, Repr

/-- An unsigned number of at most 64 bits (R90). -/
def asmUnsigned (x : Int) : Option Word :=
  if 0 ≤ x ∧ x < 2 ^ 64 then some (BitVec.ofInt 64 x) else none

/-- The value operand of CPUT and WRITE, which may also be a negative number with a 64-bit two's-complement pattern
(R90, log 17). -/
def asmValue (x : Int) : Option Word :=
  if -2 ^ 63 ≤ x ∧ x < 2 ^ 64 then some (BitVec.ofInt 64 x) else none

/-- A command with its operands, where both are in range. -/
def asmCommand (c : Command) (a b : Option Word) : Option Transfer :=
  match a, b with
  | some a, some b => some { word := c.word, a := a, b := b }
  | _, _ => none

/-- The command a line assembles to. The suffix is mandatory on CGET, CPUT, OPENR and OPENW and forbidden elsewhere;
the tag and the operands are those the mnemonic takes; an operand it does not take is driven as 0, which no command
reads (R79, R90). -/
def assemble (l : AsmLine) : Option Transfer :=
  match l.mnemonic, l.suffix, l.tag, l.a, l.b with
  | .cget, some e, some t, some a, none => asmCommand (.cget t e) (asmUnsigned a) (some 0)
  | .cput, some e, some t, some a, some b => asmCommand (.cput t e) (asmUnsigned a) (asmValue b)
  | .openr, some e, none, some a, some b => asmCommand (.openr e) (asmUnsigned a) (asmUnsigned b)
  | .openw, some e, none, some a, some b => asmCommand (.openw e) (asmUnsigned a) (asmUnsigned b)
  | .read, none, some t, none, none => asmCommand (.read t) (some 0) (some 0)
  | .write, none, some t, none, some b => asmCommand (.write t) (some 0) (asmValue b)
  | .readb, none, none, some a, some b => asmCommand .readb (asmUnsigned a) (asmUnsigned b)
  | .writeb, none, none, some a, some b => asmCommand .writeb (asmUnsigned a) (asmUnsigned b)
  | .size, none, none, none, none => asmCommand .size (some 0) (some 0)
  | .pos, none, none, none, none => asmCommand .pos (some 0) (some 0)
  | .seek, none, none, some a, none => asmCommand .seek (asmUnsigned a) (some 0)
  | _, _, _, _, _ => none

end Sys2Proof.Machine
end

