-- ==== Sys2Proof/Safety.lean ====
section
/-!
DEFINITION. The terms the claims are stated in: slices and the accesses they are made of, what a store changes, the
violations of R190 in the order of R195, the invariant of the machine, how a run ends (R237), and which assembler
lines have the parts R90 gives their mnemonic.
-/
namespace Sys2Proof.Machine

/-! ### Slices -/

/-- The address at offset i of a slice, modulo 2^64 (R63). -/
def addr (a : Word) (i : Nat) : Word := a + BitVec.ofNat 64 i

/-- An address that is none of the n bytes from `a` on. -/
abbrev Outside (a : Word) (n : Nat) (c : Word) : Prop := ∀ i, i < n → c ≠ addr a i

/-- The n bytes that reads from `a` on give in a state. -/
def State.bytesFrom (s : State) (a : Word) (n : Nat) : List Byte :=
  (List.range n).map fun i => s.byteAt (addr a i)

/-- The n reads from `a` on, ascending (R59). -/
def readsFrom (a : Word) (n : Nat) : List Access := (List.range n).map fun i => .read (addr a i)

/-- The writes of some bytes from `a` on, ascending (R59). -/
def writesFrom (a : Word) (bs : List Byte) : List Access :=
  bs.zipIdx.map fun p => .write (addr a p.2) p.1

/-- The accesses of a bulk copy of some bytes: each is read and then written before the next is read (R59). -/
def copiesFrom (src dst : Word) (bs : List Byte) : List Access :=
  bs.zipIdx.flatMap fun p => [.read (addr src p.2), .write (addr dst p.2) p.1]

/-- The address of an access. -/
def Access.address : Access → Word
  | .read a => a
  | .write a _ => a

/-- Whether an access is a write. -/
def Access.isWrite : Access → Bool
  | .read _ => false
  | .write _ _ => true

/-- The second memory is the first with exactly these bytes stored from `a` on: every stored byte reads as given,
every other address as before. -/
def StoresExactly (m m' : Memory) (a : Word) (bs : List Byte) : Prop :=
  (∀ j, j < bs.length → some (m'.read (addr a j)) = bs[j]?) ∧
    ∀ c, Outside a bs.length c → m'.read c = m.read c

/-- The bytes a bulk copy moves, in order. With `d = dst - src`, byte j comes from a source address that the copy
itself has already stored to exactly when `0 < d ≤ j`, and is then the byte stored there (R59, R160); in a mutated
buffer a read gives any value (R232). -/
def CopiedBytes (s : State) (src dst : Word) (bs : List Byte) : Prop :=
  ∀ j, j < bs.length → bs[j]? =
    if 0 < (dst - src).toNat ∧ (dst - src).toNat ≤ j ∧ s.unsettled (addr src j) = false
    then bs[j - (dst - src).toNat]? else some (s.byteAt (addr src j))

/-! ### Values -/

/-- The number the bytes of a slice assemble to: each byte at the weight of its lane (R12, R115). -/
def patternOf (e : ByteOrder) (bs : List Byte) : Nat :=
  (bs.zipIdx.map fun p => p.1.toNat * 2 ^ lane e bs.length p.2).sum

/-- `int_s(p)` of an n-bit pattern: its two's-complement value (R10). -/
def intOf (n p : Nat) : Int := if p < 2 ^ (n - 1) then p else p - 2 ^ n

/-- A value representable in a tag's bytes (R117). -/
def Representable (t : Tag) (v : Word) : Prop :=
  if t.signed then v = (v.setWidth (8 * t.byteLen)).signExtend 64 else v.toNat < 2 ^ (8 * t.byteLen)

/-! ### Violations -/

/-- The conditions of R190 that a command checks after decoding, with their causes, in the order of R195. -/
def violations (c : Command) (s : State) : List (Bool × Cause) :=
  let noSession := (decide (s.session = .none), Cause.noSession)
  let notReader := (decide (s.session ≠ .reader), Cause.wrongSession)
  let notWriter := (decide (s.session ≠ .writer), Cause.wrongSession)
  let nullA := (decide (s.operandA = 0), Cause.nullPointer)
  let zeroB := (decide (s.operandB = 0), Cause.zeroSize)
  let past := fun n => (decide (s.size.toNat - s.pos.toNat < n), Cause.capacity)
  let nullSlice := (decide (s.base + s.pos = 0), Cause.nullPointer)
  match c with
  | .cget _ _ => [nullA]
  | .cput _ _ => [nullA]
  | .openr _ => [nullA, zeroB]
  | .openw _ => [nullA, zeroB]
  | .read t => [noSession, notReader, past t.byteLen, nullSlice]
  | .write t => [noSession, notWriter, past t.byteLen, nullSlice]
  | .readb => [noSession, notReader, past s.operandB.toNat]
  | .writeb => [noSession, notWriter, past s.operandB.toNat]
  | .size => [noSession]
  | .pos => [noSession]
  | .seek => [noSession, (decide (s.size.toNat < s.operandA.toNat), Cause.seekRange)]

/-- The cause of the first violation, if there is one (R195). -/
def firstViolation (c : Command) (s : State) : Option Cause :=
  ((violations c s).find? (·.1)).map (·.2)

/-! ### The invariant and the end of a run -/

/-- What every step keeps: a session has a non-null, non-empty view and a cursor inside it (R30); with no session the
reset values stand (R36); CAUSE is NONE exactly while FATAL is 0 (R27); the memory is canonical; the index stays in the
host's list, at the failed command while the block is halted (R29); and a halted block has given no response and made
no access (R193). -/
abbrev State.Inv (s : State) : Prop :=
  (s.session ≠ .none → s.base ≠ 0 ∧ s.size ≠ 0 ∧ s.pos.toNat ≤ s.size.toNat) ∧
  (s.session = .none → s.order = .le ∧ s.base = 0 ∧ s.size = 0 ∧ s.pos = 0) ∧
  (s.fatal = false ↔ s.cause = .none) ∧
  s.mem.wf = true ∧
  s.index ≤ s.program.length ∧
  (s.fatal = true → s.index < s.program.length ∧ s.rsp = none ∧ s.accesses = [])

/-- The registers have their reset values (R36, R220). -/
abbrev State.RegistersReset (s : State) : Prop :=
  s.session = .none ∧ s.order = .le ∧ s.base = 0 ∧ s.size = 0 ∧ s.pos = 0 ∧ s.fatal = false ∧ s.cause = .none

/-- The host's next action is a reset of the block: while it is idle, out of the fatal halt, or during a command
(R220, log 2). -/
abbrev State.ResetComes (s : State) : Prop :=
  (s.fatal = false ∧ s.program[s.index]? = some .reset) ∨
    (s.fatal = true ∧ s.program[s.index + 1]? = some .reset) ∨
      (s.fatal = false ∧ ∃ c, s.program[s.index]? = some (.abort c))

/-- The seven registers of two states agree (R20). -/
abbrev SameRegisters (s t : State) : Prop :=
  t.session = s.session ∧ t.order = s.order ∧ t.base = s.base ∧ t.size = s.size ∧ t.pos = s.pos ∧
    t.fatal = s.fatal ∧ t.cause = s.cause

/-- A run has ended successfully: every action is done, every command has given its response, and FATAL = 0 (R237,
log 21). DESIGN CHOICE: R237 says nothing of a run in which a duty of R231 to R233 was broken; where another agent wrote
the session's buffer (R232) the model still calls the run successful on these grounds, without asking for `mutated`
(log 22). -/
abbrev State.Succeeded (s : State) : Prop :=
  s.fatal = false ∧ s.index = s.program.length ∧ s.unanswered = []

/-- All actions are done, but a reset ended some command before its response: a run that is neither of the two ends of
R237, which knows of commands only (log 21); a broken duty of R232 is not asked for (log 22). -/
abbrev State.CutShort (s : State) : Prop :=
  s.fatal = false ∧ s.index = s.program.length ∧ s.unanswered ≠ []

/-- A run has ended faulted: FATAL = 1 (R237); a broken duty of R232 is not asked for (log 22). -/
abbrev State.Faulted (s : State) : Prop := s.fatal = true

/-! ### Assembler lines -/

/-- Whether an operand is written and is a number from `lo` to 2^64 - 1 (R90). -/
def operandFrom (lo : Int) (o : Option Int) : Bool := o.any fun x => decide (lo ≤ x ∧ x < 2 ^ 64)

/-- Whether a line has exactly the parts R90 gives its mnemonic, with operands in range; only the value of CPUT and
WRITE may be negative (its lower bound: log 17). -/
def AsmLine.hasItsParts (l : AsmLine) : Bool :=
  match l.mnemonic with
  | .cget => l.suffix.isSome && l.tag.isSome && operandFrom 0 l.a && l.b.isNone
  | .cput => l.suffix.isSome && l.tag.isSome && operandFrom 0 l.a && operandFrom (-2 ^ 63) l.b
  | .openr => l.suffix.isSome && l.tag.isNone && operandFrom 0 l.a && operandFrom 0 l.b
  | .openw => l.suffix.isSome && l.tag.isNone && operandFrom 0 l.a && operandFrom 0 l.b
  | .read => l.suffix.isNone && l.tag.isSome && l.a.isNone && l.b.isNone
  | .write => l.suffix.isNone && l.tag.isSome && l.a.isNone && operandFrom (-2 ^ 63) l.b
  | .readb => l.suffix.isNone && l.tag.isNone && operandFrom 0 l.a && operandFrom 0 l.b
  | .writeb => l.suffix.isNone && l.tag.isNone && operandFrom 0 l.a && operandFrom 0 l.b
  | .size => l.suffix.isNone && l.tag.isNone && l.a.isNone && l.b.isNone
  | .pos => l.suffix.isNone && l.tag.isNone && l.a.isNone && l.b.isNone
  | .seek => l.suffix.isNone && l.tag.isNone && operandFrom 0 l.a && l.b.isNone

end Sys2Proof.Machine
end

