-- ==== Sys2Proof/Certificates/Slice0/Obligations.lean ====
section
/-!
DEFINITION. The statements for the provers. "i stands for c" is `i.command = c`: it names the rows of
spec/opcode_table.json whose mnemonic and tag are those of the command c.
-/

open Sys2Proof Sys2Proof.Machine

/-! ### Encoding -/

/-- The fifteen encoding examples of R92 (marked derived in the spec), read by the decoder and written by the encoder.
-/
def Obligations.EncodingExamplesOfR92 : Prop :=
  ∀ p ∈ ([(.cgetU32 .le, 0x00000031), (.cgetU32 .be, 0x00000131), (.cputU24 .be, 0x00000122),
      (.cputI64 .le, 0x000000F2), (.openr .le, 0x00000003), (.openw .be, 0x00000104), (.readI8, 0x00000085),
      (.readU16, 0x00000015), (.writeU56, 0x00000066), (.writeI32, 0x000000B6), (.readb, 0x00000007),
      (.writeb, 0x00000008), (.size, 0x00000009), (.pos, 0x0000000A), (.seek, 0x0000000B)] :
        List (Instr × CommandWord)), decode p.2 = .ok p.1 ∧ encode p.1 = p.2

/-- R74: every tag's code is its descriptor, `TAG[2:0] = L - 1` and `TAG[3] = signed`; the code spells that tag, and
exactly the four codes of the signed odd widths spell none. -/
def Obligations.TagCodesAreTheirDescriptors : Prop :=
  (∀ t : Tag, (t.code.extractLsb' 0 3).toNat + 1 = t.byteLen ∧ t.code.getLsbD 3 = t.signed ∧
      tagOfCode t.code = some t) ∧
    ∀ c : BitVec 4, tagOfCode c = none ↔ (c = 0xA ∨ c = 0xC ∨ c = 0xD ∨ c = 0xE)

/-- Decoding and encoding agree in both directions: every instruction is well-formed and is read back from its word,
and every word that is read as an instruction is that instruction's word. -/
def Obligations.DecodeAndEncodeAgree : Prop :=
  (∀ i : Instr, i.wellFormed = true ∧ decode (encode i) = .ok i) ∧
    ∀ (w : CommandWord) (i : Instr), decode w = .ok i → encode i = w

/-- R78: a word spells a command exactly when the five conditions hold, and there are 81 such words with the counts
the rule gives by operation. -/
def Obligations.LegalWordsAreThoseDecoded : Prop :=
  (∀ w : CommandWord, (∃ i, decode w = .ok i) ↔
      (w.extractLsb' 9 23 = 0 ∧
        (1 ≤ (w.extractLsb' 0 4).toNat ∧ (w.extractLsb' 0 4).toNat ≤ 0xB) ∧
        ((w.extractLsb' 0 4).toNat ∈ [0x1, 0x2, 0x5, 0x6] →
          (w.extractLsb' 4 4).toNat ∈ [0, 1, 2, 3, 4, 5, 6, 7, 8, 9, 0xB, 0xF]) ∧
        ((w.extractLsb' 0 4).toNat ∉ [0x1, 0x2, 0x5, 0x6] → w.extractLsb' 4 4 = 0) ∧
        ((w.extractLsb' 0 4).toNat ∉ [0x1, 0x2, 0x3, 0x4] → w.getLsbD 8 = false))) ∧
    (∀ w : CommandWord, (fieldsOf w).legal = true ↔ ∃ i, decode w = .ok i) ∧
    ∃ words : List CommandWord, words.Nodup ∧ words.length = 81 ∧
      (∀ w, w ∈ words ↔ ∃ i, decode w = .ok i) ∧
      (List.range 16).map (fun op => (words.filter fun w => (w.extractLsb' 0 4).toNat == op).length) =
        [0, 24, 24, 2, 2, 12, 12, 1, 1, 1, 1, 1, 0, 0, 0, 0]

/-- R80: a word with one of the five defects spells no command, there are no other such words, and a running block
that is offered one halts with ILLEGAL_COMMAND: no illegal word is a no-op. -/
def Obligations.IllegalWordHaltsTheBlock : Prop :=
  (∀ w : CommandWord, (∃ r, decode w = .error r) ↔
      ((w.extractLsb' 0 4).toNat = 0 ∨ 0xC ≤ (w.extractLsb' 0 4).toNat ∨
        ((w.extractLsb' 0 4).toNat ∈ [0x1, 0x2, 0x5, 0x6] ∧ (w.extractLsb' 4 4).toNat ∈ [0xA, 0xC, 0xD, 0xE]) ∨
        ((w.extractLsb' 0 4).toNat ∉ [0x1, 0x2, 0x5, 0x6] ∧ w.extractLsb' 4 4 ≠ 0) ∨
        ((w.extractLsb' 0 4).toNat ∉ [0x1, 0x2, 0x3, 0x4] ∧ w.getLsbD 8 = true) ∨
        w.extractLsb' 9 23 ≠ 0)) ∧
    ∀ (s : State) (c : Transfer) (r : Illegal), s.fatal = false → s.program[s.index]? = some (.command c) →
      decode c.word = .error r →
      step s = .next { s with fatal := true, cause := .illegalCommand, rsp := none, accesses := [] }

/-- After R90 and R91: a line assembles exactly when it has the parts its mnemonic takes, with operands in range (the
value of CPUT and WRITE may be negative), and then to exactly one command, the one its mnemonic, suffix and tag name,
with the operands written, whose word spells an instruction; every instruction is the word of some line. (Lines are
taken already split, and a negative value goes down to -2^63, log 17.) -/
def Obligations.EveryLineAssemblesToOneCommand : Prop :=
  (∀ l : AsmLine, (∃ c, assemble l = some c) ↔ l.hasItsParts = true) ∧
    (∀ (l : AsmLine) (c : Transfer), assemble l = some c →
        ∃ i : Instr, decode c.word = .ok i ∧
          (match i.command with
            | .cget t e => l.mnemonic = .cget ∧ l.tag = some t ∧ l.suffix = some e
            | .cput t e => l.mnemonic = .cput ∧ l.tag = some t ∧ l.suffix = some e
            | .openr e => l.mnemonic = .openr ∧ l.tag = none ∧ l.suffix = some e
            | .openw e => l.mnemonic = .openw ∧ l.tag = none ∧ l.suffix = some e
            | .read t => l.mnemonic = .read ∧ l.tag = some t ∧ l.suffix = none
            | .write t => l.mnemonic = .write ∧ l.tag = some t ∧ l.suffix = none
            | .readb => l.mnemonic = .readb ∧ l.tag = none ∧ l.suffix = none
            | .writeb => l.mnemonic = .writeb ∧ l.tag = none ∧ l.suffix = none
            | .size => l.mnemonic = .size ∧ l.tag = none ∧ l.suffix = none
            | .pos => l.mnemonic = .pos ∧ l.tag = none ∧ l.suffix = none
            | .seek => l.mnemonic = .seek ∧ l.tag = none ∧ l.suffix = none) ∧
          (∀ x, l.a = some x → c.a = BitVec.ofInt 64 x) ∧ (∀ x, l.b = some x → c.b = BitVec.ofInt 64 x)) ∧
    ∀ i : Instr, ∃ (l : AsmLine) (c : Transfer), assemble l = some c ∧ decode c.word = .ok i

/-! ### Steps -/

/-- A step runs the decoded instruction: the host's command at the index, its operands on the port, with the outputs
of the action before it cleared. -/
def Obligations.StepRunsTheDecodedCommand : Prop :=
  ∀ (s : State) (c : Transfer) (i : Instr), s.fatal = false → s.program[s.index]? = some (.command c) →
    decode c.word = .ok i →
    step s = exec i s.accept ∧ s.accept = { s with rsp := none, accesses := [] } ∧
      s.accept.operandA = c.a ∧ s.accept.operandB = c.b

/-- After R206: with nothing offered the block keeps all its state (its outputs are cleared, log 3 and log 9), and no
action but a command or a reset changes a register of it. -/
def Obligations.IdleBlockKeepsItsState : Prop :=
  (∀ s : State, s.fatal = false → s.program[s.index]? = none →
      step s = .next { s with rsp := none, accesses := [] }) ∧
    ∀ s t : State, step s = .next t → s.fatal = false →
      (∀ c, s.program[s.index]? ≠ some (.command c)) → (∀ c, s.program[s.index]? ≠ some (.abort c)) →
      s.program[s.index]? ≠ some .reset → SameRegisters s t

/-- After R194: while FATAL = 1 the block is not ready, executes nothing, and has no step unless the host resets it; a
step out of the halt is that reset. -/
def Obligations.HaltedBlockHasNoStepButReset : Prop :=
  ∀ s : State, s.fatal = true →
    s.cmdReady = false ∧ (∀ i, exec i s = .fault .halted) ∧
      (s.program[s.index + 1]? ≠ some .reset → step s = .fault .halted) ∧
      (s.program[s.index + 1]? = some .reset → ∃ t, step s = .next t ∧ t.RegistersReset ∧ t.mem = s.mem)

/-- After R220 (where a reset stands in the host's list is the model's choice, log 2): reset, asserted while the block
is idle, in the fatal halt or during a command, gives every register its reset value and no response, and the block
accepts the next command. -/
def Obligations.ResetClearsEveryRegister : Prop :=
  ∀ s : State, s.ResetComes → ∃ t, step s = .next t ∧ t.RegistersReset ∧ t.rsp = none ∧ t.cmdReady = true

/-- After R221 (log 2, log 5): reset leaves the memory as it is: every byte reads as before, and a byte never written
is the platform's, a value nothing fixes. -/
def Obligations.ResetLeavesTheMemory : Prop :=
  (∀ s t : State,
      (s.fatal = false ∧ s.program[s.index]? = some .reset) ∨
        (s.fatal = true ∧ s.program[s.index + 1]? = some .reset) →
      step s = .next t → (∀ a, t.mem.read a = s.mem.read a) ∧ t.accesses = []) ∧
    ∀ (m : Memory) (a : Word), Memory.find m a.toNat = none → m.read a = Config.platformByte a.toNat

/-- After R222 (log 7): a command that writes memory and is aborted by reset leaves exactly a prefix of its writes, of
some length from none to all, and none of its other state writes; an aborted command that writes none leaves the
memory. -/
def Obligations.AbortedCommandLeavesAPrefixOfItsWrites : Prop :=
  ∀ (s : State) (c : Transfer), s.fatal = false → s.program[s.index]? = some (.abort c) →
    ∃ t, step s = .next t ∧ t.RegistersReset ∧ t.rsp = none ∧
      (∀ (i : Instr) (g : Tag) (e : ByteOrder), decode c.word = .ok i → i.command = .cput g e → c.a ≠ 0 →
        ∃ k ≤ g.byteLen, StoresExactly s.mem t.mem c.a ((encodeBytes e g c.b).take k)) ∧
      (∀ (i : Instr) (g : Tag), decode c.word = .ok i → i.command = .write g → s.session = .writer →
        g.byteLen ≤ s.size.toNat - s.pos.toNat → s.base + s.pos ≠ 0 →
        ∃ k ≤ g.byteLen, StoresExactly s.mem t.mem (s.base + s.pos) ((encodeBytes s.order g c.b).take k)) ∧
      (decode c.word = .ok .readb → s.session = .reader → c.b.toNat ≤ s.size.toNat - s.pos.toNat →
        ∃ bs : List Byte, bs.length ≤ c.b.toNat ∧ CopiedBytes s (s.base + s.pos) c.a bs ∧
          StoresExactly s.mem t.mem c.a bs) ∧
      (decode c.word = .ok .writeb → s.session = .writer → c.b.toNat ≤ s.size.toNat - s.pos.toNat →
        ∃ bs : List Byte, bs.length ≤ c.b.toNat ∧ CopiedBytes s c.a (s.base + s.pos) bs ∧
          StoresExactly s.mem t.mem (s.base + s.pos) bs) ∧
      (∀ i : Instr, decode c.word = .ok i →
        (∀ g e, i.command ≠ .cput g e) → (∀ g, i.command ≠ .write g) → i ≠ .readb → i ≠ .writeb → t.mem = s.mem) ∧
      (∀ (i : Instr) (v : Cause), decode c.word = .ok i → firstViolation i.command s = some v → t.mem = s.mem) ∧
      (∀ r, decode c.word = .error r → t.mem = s.mem)

/-- The registers at reset have the values of the table of R36, the memory lists no written byte, the host has offered
nothing, and the model's records are empty (all but the registers are the model's own choice, log 5 and log 11). -/
def Obligations.ResetStateValues : Prop :=
  State.reset.RegistersReset ∧ State.reset.mem = [] ∧ State.reset.program = [] ∧ State.reset.index = 0 ∧
    State.reset.rsp = none ∧ State.reset.accesses = [] ∧ State.reset.mutated = [] ∧ State.reset.unanswered = []

/-- R223 (marked derived in the spec): after reset CGET and CPUT can be used at once, and every stream command halts
with NO_SESSION, whatever the host offers. -/
def Obligations.AfterResetStreamCommandsHaveNoSession : Prop :=
  ∀ (s : State) (i : Instr), s.RegistersReset →
    ((∀ e, i ≠ .openr e) → (∀ e, i ≠ .openw e) → (∀ g e, i.command ≠ .cget g e) → (∀ g e, i.command ≠ .cput g e) →
      exec i s = .next { s with fatal := true, cause := .noSession, rsp := none }) ∧
    ((∃ g e, i.command = .cget g e ∨ i.command = .cput g e) → s.operandA ≠ 0 →
      ∃ t, exec i s = .next t ∧ t.fatal = false ∧ t.rsp.isSome = true)

/-! ### Invariants -/

/-- The invariant holds at reset. -/
def Obligations.ResetMeetsTheInvariant : Prop := State.reset.Inv

/-- Every step keeps the invariant, from every state that meets it: a session's view is non-null and non-empty with
its cursor inside it, CAUSE is NONE exactly while FATAL is 0, and the memory stays canonical. -/
def Obligations.StepKeepsTheInvariant : Prop := ∀ s t : State, s.Inv → step s = .next t → t.Inv

/-- R30 (marked derived in the spec): in every state of a run of any length from any state that meets the invariant, a
session's BASE and SIZE are nonzero and its POS is at most SIZE. -/
def Obligations.CursorStaysInItsView : Prop :=
  ∀ (k : Nat) (s t : State), s.Inv → core.run k s = .next t → t.session ≠ .none →
    t.base ≠ 0 ∧ t.size ≠ 0 ∧ t.pos.toNat ≤ t.size.toNat

/-- R31 (marked derived in the spec): POS changes only by an advance of the bytes moved, by SEEK to at most SIZE, or
to 0 by OPENR, OPENW or reset. -/
def Obligations.PositionChangesOnlyAsStated : Prop :=
  ∀ s t : State, s.Inv → step s = .next t → t.pos ≠ s.pos →
    (∃ (c : Transfer) (i : Instr), s.program[s.index]? = some (.command c) ∧ decode c.word = .ok i ∧
      (match i.command with
        | .read g => t.pos.toNat = s.pos.toNat + g.byteLen
        | .write g => t.pos.toNat = s.pos.toNat + g.byteLen
        | .readb => t.pos.toNat = s.pos.toNat + c.b.toNat
        | .writeb => t.pos.toNat = s.pos.toNat + c.b.toNat
        | .seek => t.pos = c.a ∧ c.a.toNat ≤ s.size.toNat
        | .openr _ => t.pos = 0
        | .openw _ => t.pos = 0
        | _ => False)) ∨
      (s.ResetComes ∧ t.pos = 0 ∧ t.RegistersReset)

/-- R32 (marked derived in the spec): BASE, SIZE and ORDER, and with them SESSION, change only by OPENR, OPENW or
reset. -/
def Obligations.ViewChangesOnlyByOpenOrReset : Prop :=
  ∀ s t : State, step s = .next t →
    (t.session = s.session ∧ t.base = s.base ∧ t.size = s.size ∧ t.order = s.order) ∨
      (s.ResetComes ∧ t.RegistersReset) ∨
      ∃ (c : Transfer) (i : Instr) (e : ByteOrder), s.program[s.index]? = some (.command c) ∧
        decode c.word = .ok i ∧ (i = .openr e ∨ i = .openw e)

/-- R197 (marked derived in the spec): a fatal entry is precise. Whatever sets FATAL leaves the state before the
failing command, apart from FATAL, CAUSE and the outputs, which show no response and no access. -/
def Obligations.FatalEntryIsPrecise : Prop :=
  ∀ s t : State, step s = .next t → t.fatal = true →
    s.fatal = false ∧ t.cause ≠ .none ∧
      t = { s with fatal := true, cause := t.cause, rsp := none, accesses := [] }

/-- R193: when a check of a command fails, be it decoding or one of the command's own, FATAL and CAUSE are written, no
response is given, no access is made, and everything else stays. -/
def Obligations.FailedCheckWritesOnlyFatalAndCause : Prop :=
  (∀ (s : State) (i : Instr) (c : Cause), s.fatal = false → firstViolation i.command s = some c →
      exec i s = .next { s with fatal := true, cause := c, rsp := none }) ∧
    ∀ (s : State) (c : Transfer) (r : Illegal), s.fatal = false → s.program[s.index]? = some (.command c) →
      decode c.word = .error r →
      step s = .next { s with fatal := true, cause := .illegalCommand, rsp := none, accesses := [] }

/-! ### Checks -/

/-- R196: the session check, which commands make it and with what need, and that the other four make none. -/
def Obligations.SessionCheckOfStreamCommands : Prop :=
  (∀ (s : State) (need : Need), sessionCheck need s =
      if s.session = .none then some .noSession
      else if need = .reader ∧ s.session ≠ .reader then some .wrongSession
      else if need = .writer ∧ s.session ≠ .writer then some .wrongSession
      else none) ∧
    (∀ (s : State) (i : Instr) (need : Need) (c : Cause), s.fatal = false →
      (match i.command with
        | .read _ => need = .reader
        | .readb => need = .reader
        | .write _ => need = .writer
        | .writeb => need = .writer
        | .size => need = .either
        | .pos => need = .either
        | .seek => need = .either
        | _ => False) →
      sessionCheck need s = some c → exec i s = .next { s with fatal := true, cause := c, rsp := none }) ∧
    ∀ (s t : State) (i : Instr), s.fatal = false → exec i s = .next t → t.fatal = true →
      (match i.command with
        | .cget _ _ => True
        | .cput _ _ => True
        | .openr _ => True
        | .openw _ => True
        | _ => False) →
      t.cause ≠ .noSession ∧ t.cause ≠ .wrongSession

/-- R195: an illegal word halts before anything else is checked; a legal command of a running block executes exactly
when none of its violations holds, and otherwise halts with the cause of the first one in the order of the rule, with
no access made and no other state written. -/
def Obligations.FirstViolationGivesTheCause : Prop :=
  (∀ (s : State) (c : Transfer) (r : Illegal), s.fatal = false → s.program[s.index]? = some (.command c) →
      decode c.word = .error r → ∃ t, step s = .next t ∧ t.fatal = true ∧ t.cause = .illegalCommand) ∧
    ∀ (s : State) (i : Instr), s.fatal = false →
      (∀ c, firstViolation i.command s = some c →
        ∃ t, exec i s = .next t ∧ t.fatal = true ∧ t.cause = c ∧ t.accesses = s.accesses ∧ t.mem = s.mem ∧
          t.session = s.session ∧ t.order = s.order ∧ t.base = s.base ∧ t.size = s.size ∧ t.pos = s.pos) ∧
      (firstViolation i.command s = none → ∃ t, exec i s = .next t ∧ t.fatal = false ∧ t.cause = s.cause)

/-- The CAUSE output shows the code of R190 of the cause that is held, SESSION is encoded as R21 says, and the CAUSE
output is 0 exactly while the FATAL output is. -/
def Obligations.CauseAndSessionCodes : Prop :=
  (∀ s : State, s.causeOut = match s.cause with
      | .none => 0
      | .illegalCommand => 1
      | .noSession => 2
      | .wrongSession => 3
      | .nullPointer => 4
      | .zeroSize => 5
      | .capacity => 6
      | .seekRange => 7) ∧
    (∀ k : Session, k.code = match k with
      | .none => 0
      | .reader => 1
      | .writer => 2) ∧
    ∀ s : State, s.Inv → (s.causeOut = 0 ↔ s.fatalOut = 0)

/-- The causes each command can raise (R191, which the spec marks as derived): from states of the invariant exactly
those of its row, and for READ and WRITE NULL_POINTER only where the buffer crosses the top of the address space;
every operation code has an illegal word. -/
def Obligations.CausesEachCommandCanRaise : Prop :=
  (∀ (i : Instr) (c : Cause),
      (∃ s t : State, s.Inv ∧ s.fatal = false ∧ exec i s = .next t ∧ t.fatal = true ∧ t.cause = c) ↔
        c ∈ (match i.command with
          | .cget _ _ => [.nullPointer]
          | .cput _ _ => [.nullPointer]
          | .openr _ => [.nullPointer, .zeroSize]
          | .openw _ => [.nullPointer, .zeroSize]
          | .read _ => [.noSession, .wrongSession, .nullPointer, .capacity]
          | .write _ => [.noSession, .wrongSession, .nullPointer, .capacity]
          | .readb => [.noSession, .wrongSession, .capacity]
          | .writeb => [.noSession, .wrongSession, .capacity]
          | .size => [.noSession]
          | .pos => [.noSession]
          | .seek => [.noSession, .seekRange] : List Cause)) ∧
    (∀ (s t : State) (i : Instr) (g : Tag), s.Inv → (i.command = .read g ∨ i.command = .write g) →
      exec i s = .next t → t.cause = .nullPointer → s.base.toNat + s.pos.toNat = 2 ^ 64) ∧
    ∀ op : BitVec 4, 1 ≤ op.toNat ∧ op.toNat ≤ 0xB →
      ∃ (w : CommandWord) (r : Illegal), w.extractLsb' 0 4 = op ∧ decode w = .error r

/-! ### Codec -/

/-- CGET: with a non-null slice address it completes in every session state, responds the decoded bytes of the slice,
makes exactly its L reads in ascending order, and changes nothing else, memory and registers included. -/
def Obligations.CgetRespondsTheDecodedSlice : Prop :=
  ∀ (s : State) (i : Instr) (g : Tag) (e : ByteOrder), i.command = .cget g e → s.fatal = false →
    s.operandA ≠ 0 →
    exec i s = .next { s with
      rsp := some (decodeBytes e g (s.bytesFrom s.operandA g.byteLen))
      accesses := s.accesses ++ readsFrom s.operandA g.byteLen
      index := s.index + 1 }

/-- CPUT: with a non-null slice address it completes in every session state, stores exactly the L encoded bytes from A
on, leaves every other byte and every register, and responds 0. -/
def Obligations.CputStoresExactlyItsBytes : Prop :=
  ∀ (s : State) (i : Instr) (g : Tag) (e : ByteOrder), i.command = .cput g e → s.fatal = false →
    s.operandA ≠ 0 →
    ∃ t, exec i s = .next t ∧ StoresExactly s.mem t.mem s.operandA (encodeBytes e g s.operandB) ∧
      t = { s with
        mem := t.mem
        rsp := some 0
        accesses := s.accesses ++ writesFrom s.operandA (encodeBytes e g s.operandB)
        index := s.index + 1 }

/-- R130: the codec checks its slice's start address alone. CGET and CPUT halt with NULL_POINTER exactly when A is 0,
whatever the other addresses of the slice are; READ and WRITE apply the same check to the slice address at the cursor.
-/
def Obligations.CodecChecksTheStartAddressAlone : Prop :=
  ∀ (s : State) (i : Instr) (g : Tag), s.fatal = false →
    ((∃ e, i.command = .cget g e ∨ i.command = .cput g e) →
      ((exec i s = .next { s with fatal := true, cause := .nullPointer, rsp := none } ↔ s.operandA = 0) ∧
        (s.operandA ≠ 0 → ∃ t, exec i s = .next t ∧ t.fatal = false))) ∧
    ((i.command = .read g ∧ s.session = .reader) ∨ (i.command = .write g ∧ s.session = .writer) →
      g.byteLen ≤ s.size.toNat - s.pos.toNat →
      ((exec i s = .next { s with fatal := true, cause := .nullPointer, rsp := none } ↔ s.base + s.pos = 0) ∧
        (s.base + s.pos ≠ 0 → ∃ t, exec i s = .next t ∧ t.fatal = false)))

/-- R115: the value of a get. The bytes assemble to the number in which each stands in its lane; an unsigned tag's
response is that number and a signed tag's response spells its two's-complement value. -/
def Obligations.GetValueIsTheAssembledNumber : Prop :=
  ∀ (e : ByteOrder) (g : Tag) (bs : List Byte), bs.length = g.byteLen →
    patternOf e bs < 2 ^ (8 * g.byteLen) ∧
      (g.signed = false → (decodeBytes e g bs).toNat = patternOf e bs) ∧
      (g.signed = true → (decodeBytes e g bs).toInt = intOf (8 * g.byteLen) (patternOf e bs))

/-- R113: signed tags exist only at 1, 2, 4 and 8 bytes, the codes of signed odd widths are reserved, and an odd-width
get is always zero-extended. -/
def Obligations.OddWidthsAreNeverSignExtended : Prop :=
  (∀ g : Tag, g.signed = true → g.byteLen ∈ [1, 2, 4, 8]) ∧
    (∀ c : BitVec 4, c.getLsbD 3 = true → (c.extractLsb' 0 3).toNat + 1 ∈ [3, 5, 6, 7] → tagOfCode c = none) ∧
    ∀ (e : ByteOrder) (g : Tag) (bs : List Byte), g.byteLen ∈ [3, 5, 6, 7] → bs.length = g.byteLen →
      g.signed = false ∧ (decodeBytes e g bs).toNat < 2 ^ (8 * g.byteLen) ∧
        ∀ n, 8 * g.byteLen ≤ n → (decodeBytes e g bs).getLsbD n = false

/-- R116: the bytes of a put. There are L of them, byte i is the value's byte in lane i, together they assemble to the
value's low 8L bits, and the bits above those do not matter. -/
def Obligations.PutBytesAreTheLowBytes : Prop :=
  ∀ (e : ByteOrder) (g : Tag) (v : Word),
    (encodeBytes e g v).length = g.byteLen ∧
      (∀ i, i < g.byteLen →
        (encodeBytes e g v)[i]? = some (BitVec.ofNat 8 (v.toNat / 2 ^ lane e g.byteLen i))) ∧
      patternOf e (encodeBytes e g v) = v.toNat % 2 ^ (8 * g.byteLen) ∧
      ∀ v' : Word, v'.toNat % 2 ^ (8 * g.byteLen) = v.toNat % 2 ^ (8 * g.byteLen) →
        encodeBytes e g v' = encodeBytes e g v

/-- R117 (marked derived in the spec): the symmetry law. Decoding what encoding gave returns a representable value
exactly, in both byte orders, and for any other value the one its low 8L bits spell under the tag. -/
def Obligations.DecodeAfterEncodeIsSymmetric : Prop :=
  ∀ (e : ByteOrder) (g : Tag) (v : Word),
    (Representable g v → decodeBytes e g (encodeBytes e g v) = v) ∧
      decodeBytes e g (encodeBytes e g v) =
        if g.signed then (v.setWidth (8 * g.byteLen)).signExtend 64 else (v.setWidth (8 * g.byteLen)).setWidth 64

/-- R118 (marked derived in the spec): the mirror property, for encoding and for decoding. -/
def Obligations.BigEndianMirrorsLittleEndian : Prop :=
  (∀ (g : Tag) (v : Word) (i : Nat), i < g.byteLen →
      (encodeBytes .be g v)[i]? = (encodeBytes .le g v)[g.byteLen - 1 - i]?) ∧
    ∀ (g : Tag) (bs : List Byte), bs.length = g.byteLen →
      decodeBytes .be g bs.reverse = decodeBytes .le g bs

/-- W1: a put and then a get of the same tag and order at the same non-null address, as two steps of the machine,
responds the value where it is representable, else what its low 8L bits spell; no register has changed. -/
def Obligations.PutThenGetReturnsTheValue : Prop :=
  ∀ (s : State) (g : Tag) (e : ByteOrder) (p q : Transfer), s.fatal = false → s.mutated = [] →
    s.program[s.index]? = some (.command p) → s.program[s.index + 1]? = some (.command q) →
    p.word = encode (Command.cput g e).instr → q.word = encode (Command.cget g e).instr →
    p.a = q.a → p.a ≠ 0 →
    ∃ t u, step s = .next t ∧ t.rsp = some 0 ∧ step t = .next u ∧ SameRegisters s u ∧
      (Representable g p.b → u.rsp = some p.b) ∧ u.rsp = some (spell g p.b)

/-- R56 (marked derived in the spec): bytes are all that is kept. After CPUT.LE u32 of 0x01020304 at a nonzero
address, the gets of the rule's example give its values. -/
def Obligations.MixedAccessesSeeTheStoredBytes : Prop :=
  ∀ (s t u : State) (i : Instr), s.fatal = false → s.mutated = [] → s.operandA ≠ 0 →
    s.operandB = 0x01020304 → exec (.cputU32 .le) s = .next t → t.operandA = s.operandA → exec i t = .next u →
    t.bytesFrom s.operandA 4 = [0x04, 0x03, 0x02, 0x01] ∧
      (i = .cgetU16 .le → u.rsp = some 0x0304) ∧
      (i = .cgetU16 .be → u.rsp = some 0x0403) ∧
      (i = .cgetU32 .be → u.rsp = some 0x04030201)

/-! ### Sessions and the cursor -/

/-- OPENR and OPENW: with a non-null A and a nonzero B they complete, in any session state, and leave the session,
order, view and cursor the rules give, memory untouched. -/
def Obligations.OpenConstructsTheSession : Prop :=
  ∀ (s : State) (e : ByteOrder), s.fatal = false → s.operandA ≠ 0 → s.operandB ≠ 0 →
    exec (.openr e) s = .next { s with
        session := .reader, order := e, base := s.operandA, size := s.operandB, pos := 0,
        rsp := some 0, index := s.index + 1 } ∧
      exec (.openw e) s = .next { s with
        session := .writer, order := e, base := s.operandA, size := s.operandB, pos := 0,
        rsp := some 0, index := s.index + 1 }

/-- READ: in a reader session with L bytes left and a nonzero slice address it completes: it responds the bytes at the
cursor decoded in ORDER, advances POS by L, makes exactly its L reads, and changes nothing else. -/
def Obligations.ReadRespondsAndAdvances : Prop :=
  ∀ (s : State) (i : Instr) (g : Tag), i.command = .read g → s.fatal = false → s.session = .reader →
    g.byteLen ≤ s.size.toNat - s.pos.toNat → s.base + s.pos ≠ 0 →
    exec i s = .next { s with
      pos := s.pos + BitVec.ofNat 64 g.byteLen
      rsp := some (decodeBytes s.order g (s.bytesFrom (s.base + s.pos) g.byteLen))
      accesses := s.accesses ++ readsFrom (s.base + s.pos) g.byteLen
      index := s.index + 1 }

/-- WRITE: in a writer session with L bytes left and a nonzero slice address it completes: it stores exactly the L
bytes of B in ORDER at the cursor, advances POS by L, responds 0, and changes nothing else. -/
def Obligations.WriteStoresAndAdvances : Prop :=
  ∀ (s : State) (i : Instr) (g : Tag), i.command = .write g → s.fatal = false → s.session = .writer →
    g.byteLen ≤ s.size.toNat - s.pos.toNat → s.base + s.pos ≠ 0 →
    ∃ t, exec i s = .next t ∧
      StoresExactly s.mem t.mem (s.base + s.pos) (encodeBytes s.order g s.operandB) ∧
      t = { s with
        mem := t.mem
        pos := s.pos + BitVec.ofNat 64 g.byteLen
        rsp := some 0
        accesses := s.accesses ++ writesFrom (s.base + s.pos) (encodeBytes s.order g s.operandB)
        index := s.index + 1 }

/-- READB: in a reader session with n = B bytes left it completes, for every A and every n, 0 included: it moves n
bytes from the cursor to A in the interleaved ascending order, stores exactly those, advances POS by n, responds 0,
and changes nothing else. -/
def Obligations.ReadbCopiesOutOfTheBuffer : Prop :=
  ∀ s : State, s.fatal = false → s.session = .reader → s.operandB.toNat ≤ s.size.toNat - s.pos.toNat →
    ∃ (t : State) (bs : List Byte), exec .readb s = .next t ∧ bs.length = s.operandB.toNat ∧
      CopiedBytes s (s.base + s.pos) s.operandA bs ∧ StoresExactly s.mem t.mem s.operandA bs ∧
      t = { s with
        mem := t.mem
        pos := s.pos + s.operandB
        rsp := some 0
        accesses := s.accesses ++ copiesFrom (s.base + s.pos) s.operandA bs
        index := s.index + 1 }

/-- WRITEB: the mirror of READB, from A to the cursor in a writer session. -/
def Obligations.WritebCopiesIntoTheBuffer : Prop :=
  ∀ s : State, s.fatal = false → s.session = .writer → s.operandB.toNat ≤ s.size.toNat - s.pos.toNat →
    ∃ (t : State) (bs : List Byte), exec .writeb s = .next t ∧ bs.length = s.operandB.toNat ∧
      CopiedBytes s s.operandA (s.base + s.pos) bs ∧ StoresExactly s.mem t.mem (s.base + s.pos) bs ∧
      t = { s with
        mem := t.mem
        pos := s.pos + s.operandB
        rsp := some 0
        accesses := s.accesses ++ copiesFrom s.operandA (s.base + s.pos) bs
        index := s.index + 1 }

/-- The closed form of a bulk copy, overlapping or not: with `d` the distance from source to destination modulo 2^64,
destination byte j ends as the byte that stood at source offset `j % d` before the copy (offset j when d is 0), so an
overlapping copy repeats its first d bytes. -/
def Obligations.OverlappingCopyRepeatsItsFirstBytes : Prop :=
  ∀ (s : State) (n j : Nat) (src dst : Word), s.mutated = [] → n ≤ 2 ^ 64 → j < n →
    (s.copySlice n src dst).mem.read (addr dst j) = s.mem.read (addr src (j % (dst - src).toNat))

/-- SIZE and POS: in a session of either kind they complete, respond SIZE and POS, and change nothing else. -/
def Obligations.QueriesRespondSizeAndPosition : Prop :=
  ∀ s : State, s.fatal = false → s.session ≠ .none →
    exec .size s = .next { s with rsp := some s.size, index := s.index + 1 } ∧
      exec .pos s = .next { s with rsp := some s.pos, index := s.index + 1 }

/-- SEEK: in a session of either kind it moves POS to A, forward or backward, exactly when A is at most SIZE as
unsigned numbers, responds 0 and changes nothing else; past SIZE it halts with SEEK_RANGE. -/
def Obligations.SeekMovesWithinTheView : Prop :=
  ∀ s : State, s.fatal = false → s.session ≠ .none →
    (s.operandA.toNat ≤ s.size.toNat →
        exec .seek s = .next { s with pos := s.operandA, rsp := some 0, index := s.index + 1 }) ∧
      (s.size.toNat < s.operandA.toNat →
        exec .seek s = .next { s with fatal := true, cause := .seekRange, rsp := none })

/-- R180 (marked derived in the spec): seek idempotence, as two steps: SEEK p and then POS respond p, for every p up
to SIZE. -/
def Obligations.SeekThenPositionGivesTheTarget : Prop :=
  ∀ (s : State) (p q : Transfer), s.fatal = false → s.session ≠ .none →
    s.program[s.index]? = some (.command p) → s.program[s.index + 1]? = some (.command q) →
    p.word = encode .seek → q.word = encode .pos → p.a.toNat ≤ s.size.toNat →
    ∃ t u, step s = .next t ∧ step t = .next u ∧ u.rsp = some p.a

/-- R181 (marked derived in the spec): in a reader session with SIZE = 8 and POS = 0, READ u32 twice succeeds and
leaves POS = SIZE = 8, whatever the bytes are, when neither slice starts at the null address. -/
def Obligations.TwoReadsConsumeAnEightByteBuffer : Prop :=
  ∀ (s : State) (p q : Transfer), s.fatal = false → s.session = .reader → s.size = 8 → s.pos = 0 →
    s.base ≠ 0 → s.base + 4 ≠ 0 →
    s.program[s.index]? = some (.command p) → s.program[s.index + 1]? = some (.command q) →
    p.word = encode .readU32 → q.word = encode .readU32 →
    ∃ t u, step s = .next t ∧ t.rsp.isSome = true ∧ step t = .next u ∧ u.rsp.isSome = true ∧ u.fatal = false ∧
      u.pos = 8 ∧ u.size = 8

/-- R182 (marked derived in the spec): a session at POS = SIZE is still open: SIZE, POS, SEEK up to SIZE and empty
bulk copies succeed there, and every READ or WRITE and every bulk copy of a byte or more halts with CAPACITY. -/
def Obligations.SessionAtItsEndIsStillOpen : Prop :=
  ∀ s : State, s.fatal = false → s.session ≠ .none → s.pos = s.size →
    (∃ t, exec .size s = .next t ∧ t.fatal = false ∧ t.rsp = some s.size) ∧
      (∃ t, exec .pos s = .next t ∧ t.fatal = false ∧ t.rsp = some s.pos) ∧
      (s.operandA.toNat ≤ s.size.toNat → ∃ t, exec .seek s = .next t ∧ t.fatal = false ∧ t.pos = s.operandA) ∧
      (∀ i : Instr, (i = .readb ∧ s.session = .reader) ∨ (i = .writeb ∧ s.session = .writer) →
        (s.operandB = 0 → exec i s = .next { s with rsp := some 0, index := s.index + 1 }) ∧
          (s.operandB ≠ 0 → exec i s = .next { s with fatal := true, cause := .capacity, rsp := none })) ∧
      (∀ (i : Instr) (g : Tag),
        (i.command = .read g ∧ s.session = .reader) ∨ (i.command = .write g ∧ s.session = .writer) →
          exec i s = .next { s with fatal := true, cause := .capacity, rsp := none })

/-- R185 (marked derived in the spec): no advance passes its check by overflow. Under the invariant, a READ, WRITE,
READB or WRITEB that completes moved at most SIZE - POS bytes, and the new POS is the old one plus those bytes as
numbers. -/
def Obligations.NoAdvancePassesByOverflow : Prop :=
  ∀ (s t : State) (i : Instr) (n : Nat), s.Inv → exec i s = .next t → t.fatal = false →
    (∃ g : Tag, (i.command = .read g ∨ i.command = .write g) ∧ n = g.byteLen) ∨
      ((i = .readb ∨ i = .writeb) ∧ n = s.operandB.toNat) →
    n ≤ s.size.toNat - s.pos.toNat ∧ t.pos.toNat = s.pos.toNat + n ∧ t.pos.toNat ≤ t.size.toNat

/-- A typed write through a writer session is read back through a reader session over the same view in the same order:
the four commands OPENW, WRITE, OPENR, READ respond 0, 0, 0 and the value, and leave the reader session past the bytes
read. -/
def Obligations.WrittenValueIsReadBack : Prop :=
  ∀ (s : State) (g : Tag) (e : ByteOrder) (p q r v : Transfer), s.fatal = false → s.mutated = [] →
    s.program[s.index]? = some (.command p) → s.program[s.index + 1]? = some (.command q) →
    s.program[s.index + 2]? = some (.command r) → s.program[s.index + 3]? = some (.command v) →
    p.word = encode (.openw e) → q.word = encode (Command.write g).instr → r.word = encode (.openr e) →
    v.word = encode (Command.read g).instr →
    p.a ≠ 0 → g.byteLen ≤ p.b.toNat → r.a = p.a → r.b = p.b →
    ∃ t₁ t₂ t₃ u, step s = .next t₁ ∧ t₁.rsp = some 0 ∧ step t₁ = .next t₂ ∧ t₂.rsp = some 0 ∧
      step t₂ = .next t₃ ∧ t₃.rsp = some 0 ∧ step t₃ = .next u ∧
      u.session = .reader ∧ u.order = e ∧ u.base = p.a ∧ u.size = p.b ∧
      u.pos.toNat = g.byteLen ∧ u.fatal = false ∧
      (Representable g q.b → u.rsp = some q.b) ∧ u.rsp = some (spell g q.b)

/-! ### Memory, accesses and isolation -/

/-- R65: a read returns the byte the block wrote there last, and a write changes no other byte. -/
def Obligations.ReadReturnsTheLastWrite : Prop :=
  ∀ (s : State) (a c : Word) (b : Byte), s.mutated = [] →
    ((s.memWrite a b).memRead c).1 = if c = a then b else (s.memRead c).1

/-- R241 (marked derived in the spec): the number of reads and of writes each instruction makes, by command; a failing
command makes none. -/
def Obligations.AccessCountsByCommand : Prop :=
  ∀ (s t : State) (i : Instr), s.accesses = [] → exec i s = .next t →
    ((t.accesses.filter fun x => !x.isWrite).length, (t.accesses.filter fun x => x.isWrite).length) =
      if t.fatal then (0, 0)
      else match i.command with
        | .cget g _ => (g.byteLen, 0)
        | .read g => (g.byteLen, 0)
        | .cput g _ => (0, g.byteLen)
        | .write g => (0, g.byteLen)
        | .readb => (s.operandB.toNat, s.operandB.toNat)
        | .writeb => (s.operandB.toNat, s.operandB.toNat)
        | _ => (0, 0)

/-- R61 (marked derived in the spec): no command repeats a read or a write: the addresses it reads are all different,
and so are those it writes. -/
def Obligations.NoCommandRepeatsAnAccess : Prop :=
  ∀ (s t : State) (i : Instr), s.accesses = [] → exec i s = .next t →
    ((t.accesses.filter fun x => !x.isWrite).map Access.address).Nodup ∧
      ((t.accesses.filter fun x => x.isWrite).map Access.address).Nodup

/-- R53 (marked derived in the spec): the stream commands access only bytes of the session's buffer, and the bulk
copies also the n bytes at A on their other side; CGET reads and CPUT writes the L bytes at A and nothing else. -/
def Obligations.AccessesStayWhereTheRulesSay : Prop :=
  ∀ (s t : State) (i : Instr), s.Inv → s.accesses = [] → exec i s = .next t → ∀ x ∈ t.accesses,
    match i.command with
      | .cget g _ => x.isWrite = false ∧ ∃ j < g.byteLen, x.address = addr s.operandA j
      | .cput g _ => x.isWrite = true ∧ ∃ j < g.byteLen, x.address = addr s.operandA j
      | .read _ => x.isWrite = false ∧ ∃ j < s.size.toNat, x.address = addr s.base j
      | .write _ => x.isWrite = true ∧ ∃ j < s.size.toNat, x.address = addr s.base j
      | .readb => if x.isWrite then ∃ j < s.operandB.toNat, x.address = addr s.operandA j
          else ∃ j < s.size.toNat, x.address = addr s.base j
      | .writeb => if x.isWrite then ∃ j < s.size.toNat, x.address = addr s.base j
          else ∃ j < s.operandB.toNat, x.address = addr s.operandA j
      | _ => False

/-- No instruction changes a byte it has not recorded a write to. -/
def Obligations.MemoryChangesOnlyByRecordedWrites : Prop :=
  ∀ (s t : State) (i : Instr) (a : Word), s.accesses = [] → exec i s = .next t →
    t.mem.read a ≠ s.mem.read a → ∃ x ∈ t.accesses, x.isWrite = true ∧ x.address = a

/-- R72, with the responses of R71 and R193 and the index of R29 (log 2): a command that completes gives exactly one
response, the one its row of the opcode map names, and advances the host's index by one; a command that raises a fatal
cause gives none and leaves the index. -/
def Obligations.ExactlyOneResponsePerCompletedCommand : Prop :=
  ∀ (s t : State) (i : Instr), exec i s = .next t →
    (t.fatal = true → t.rsp = none ∧ t.index = s.index) ∧
      (t.fatal = false → t.index = s.index + 1 ∧
        t.rsp = some (match i.command with
          | .cget g e => decodeBytes e g (s.bytesFrom s.operandA g.byteLen)
          | .read g => decodeBytes s.order g (s.bytesFrom (s.base + s.pos) g.byteLen)
          | .size => s.size
          | .pos => s.pos
          | _ => 0))

/-- An operand a command ignores has no effect: changing A where the opcode map gives A no meaning, or B where it
gives B none, changes nothing of the outcome but the host's own record of what it drove. -/
def Obligations.IgnoredOperandsHaveNoEffect : Prop :=
  ∀ (s : State) (i : Instr) (c : Transfer) (a b : Word), s.program[s.index]? = some (.command c) →
    (match i.command with
      | .cget _ _ => a = c.a
      | .cput _ _ => a = c.a ∧ b = c.b
      | .openr _ => a = c.a ∧ b = c.b
      | .openw _ => a = c.a ∧ b = c.b
      | .read _ => True
      | .write _ => b = c.b
      | .readb => a = c.a ∧ b = c.b
      | .writeb => a = c.a ∧ b = c.b
      | .size => True
      | .pos => True
      | .seek => a = c.a) →
    exec i { s with program := s.program.set s.index (.command { c with a := a, b := b }) } =
      match exec i s with
      | .next t => .next { t with program := s.program.set s.index (.command { c with a := a, b := b }) }
      | .fault r => .fault r
      | .refused r => .refused r

/-- The values of ORDER, BASE, SIZE and POS cannot be observed while SESSION is NONE: with other values there, every
instruction has the same outcome, and a state it leaves without a session differs only in those values. -/
def Obligations.ClosedRegistersCannotBeObserved : Prop :=
  ∀ (s : State) (i : Instr) (o : ByteOrder) (b z p : Word), s.session = .none →
    exec i { s with order := o, base := b, size := z, pos := p } =
      match exec i s with
      | .next t => .next (if t.session = .none then { t with order := o, base := b, size := z, pos := p } else t)
      | .fault r => .fault r
      | .refused r => .refused r

/-- The bulk copies are independent of ORDER. -/
def Obligations.BulkCopyIgnoresTheByteOrder : Prop :=
  ∀ (s : State) (i : Instr) (o : ByteOrder), i = .readb ∨ i = .writeb →
    exec i { s with order := o } =
      match exec i s with
      | .next t => .next { t with order := o }
      | .fault r => .fault r
      | .refused r => .refused r

/-! ### The host's duties and the end of a run -/

/-- A store by another agent into an open session's buffer: from then on, for good, every byte of that buffer reads as
a value nothing fixes (R232, U4; that it is for good is the model's reading, log 6); a store elsewhere changes just
its byte. -/
def Obligations.ForeignStoreUnsettlesTheBuffer : Prop :=
  (∀ (s : State) (a : Word) (b : Byte), s.fatal = false → s.program[s.index]? = some (.store a b) →
      ∃ t, step s = .next t ∧ SameRegisters s t ∧ t.mem = s.mem.write a b ∧ t.rsp = none ∧ t.accesses = [] ∧
        (s.session ≠ .none → (a - s.base).toNat < s.size.toNat →
          ∀ c : Word, (c - s.base).toNat < s.size.toNat → t.byteAt c = Config.mutatedByte t.index c.toNat) ∧
        (s.session = .none ∨ s.size.toNat ≤ (a - s.base).toNat → t.mutated = s.mutated)) ∧
    ∀ (k : Nat) (s t : State) (c : Word), core.run k s = .next t → s.unsettled c = true →
      t.unsettled c = true ∧ t.byteAt c = Config.mutatedByte t.index c.toNat

/-- After R231 (log 8): a run whose buffer's life ends during its session is unsaid: the model refuses it, by name;
with no session open there is no duty to break and the step changes nothing but the index and the outputs. -/
def Obligations.FreedBufferIsUnsaid : Prop :=
  ∀ s : State, s.fatal = false → s.program[s.index]? = some .endBuffer →
    (s.session ≠ .none → step s = .refused .bufferFreed) ∧
      (s.session = .none → step s = .next { s with rsp := none, accesses := [], index := s.index + 1 })

/-- After R237: a run ends in one of two ways. From any running state that meets the invariant, unless a buffer is
freed (log 8), within as many steps as there are actions left the block is halted with FATAL = 1, or all actions are
done with FATAL = 0; where no command was left without a response and none is aborted, the latter end is a successful
one. A successful end means what it says: in no state of the run was the block halted, no command was aborted, and
every command gave its response. No end is both. (The host's list and the record of unanswered commands: log 2 and log
21. That this is said also of runs in which another agent wrote the session's buffer, of which R237 says nothing, is
the model's choice: log 22.) -/
def Obligations.RunEndsSuccessfullyOrFaulted : Prop :=
  (∀ s : State, s.Inv → s.fatal = false → .endBuffer ∉ s.program →
      ∃ (k : Nat) (t : State), k ≤ s.program.length - s.index ∧ core.run k s = .next t ∧
        (t.Succeeded ∨ t.Faulted ∨ t.CutShort) ∧
        (s.unanswered = [] → (∀ c, .abort c ∉ s.program) → t.Succeeded ∨ t.Faulted)) ∧
    (∀ (k : Nat) (s t : State), core.run k s = .next t → t.Succeeded →
      s.unanswered = [] ∧ ∀ (j : Nat) (u : State), j < k → core.run j s = .next u →
        u.fatal = false ∧ (∀ c, u.program[u.index]? ≠ some (.abort c)) ∧
          ∀ c, u.program[u.index]? = some (.command c) → ∃ v, step u = .next v ∧ v.rsp.isSome = true) ∧
    ∀ t : State, ¬ (t.Succeeded ∧ t.Faulted)
end

