-- ==== Sys2Proof/Laws/Memory.lean ====
section
/-!
SUPPORT. The laws of memory: a read after a write, and the canonical form kept by every write.
-/
namespace Sys2Proof.Machine

theorem Memory.find_put (m : Memory) (a c : Nat) (b : Byte) :
    Memory.find (Memory.put m a b) c = if a = c then some b else Memory.find m c := by
  induction m with
  | nil => simp [Memory.put, Memory.find]
  | cons kv m ih =>
    obtain ⟨k, v⟩ := kv
    simp only [Memory.put]
    by_cases hlt : a < k
    · simp [hlt, Memory.find]
    · by_cases heq : a = k
      · subst heq
        by_cases hc : a = c <;> simp [Memory.find, hc]
      · simp only [hlt, heq, if_false, Memory.find, ih]
        by_cases hk : k = c
        · have : a ≠ c := by omega
          simp [hk, this]
        · simp [hk]

/-- A read after a write gives the byte written at its address and the old byte elsewhere (R65). -/
theorem Memory.read_write (m : Memory) (a c : Word) (b : Byte) :
    (m.write a b).read c = if a = c then b else m.read c := by
  unfold Memory.read Memory.write
  rw [Memory.find_put]
  by_cases h : a = c
  · simp [h]
  · have : a.toNat ≠ c.toNat := fun e => h (BitVec.eq_of_toNat_eq e)
    simp [h, this]

@[simp] theorem Memory.read_write_self (m : Memory) (a : Word) (b : Byte) : (m.write a b).read a = b := by
  simp [Memory.read_write]

theorem Memory.read_write_other (m : Memory) {a c : Word} (b : Byte) (h : c ≠ a) :
    (m.write a b).read c = m.read c := by
  simp [Memory.read_write, h.symm]

theorem Memory.wfFrom_mono {m : Memory} {lo lo' : Nat} (h : lo' ≤ lo) (hw : Memory.wfFrom lo m = true) :
    Memory.wfFrom lo' m = true := by
  cases m with
  | nil => rfl
  | cons kv m =>
    simp only [Memory.wfFrom, Bool.and_eq_true, decide_eq_true_eq] at hw ⊢
    exact ⟨⟨by omega, hw.1.2⟩, hw.2⟩

theorem Memory.wfFrom_put {m : Memory} {a lo : Nat} (b : Byte) (ha : a < 2 ^ 64) (hlo : lo ≤ a)
    (hw : Memory.wfFrom lo m = true) : Memory.wfFrom lo (Memory.put m a b) = true := by
  induction m generalizing lo with
  | nil => simp [Memory.put, Memory.wfFrom, hlo]; omega
  | cons kv m ih =>
    obtain ⟨k, v⟩ := kv
    simp only [Memory.wfFrom, Bool.and_eq_true, decide_eq_true_eq] at hw
    simp only [Memory.put]
    split
    · simp only [Memory.wfFrom, Bool.and_eq_true, decide_eq_true_eq]
      exact ⟨⟨hlo, ha⟩, ⟨by omega, hw.1.2⟩, hw.2⟩
    · split
      · rename_i hk
        simp only [Memory.wfFrom, Bool.and_eq_true, decide_eq_true_eq]
        exact ⟨⟨hlo, ha⟩, hk ▸ hw.2⟩
      · simp only [Memory.wfFrom, Bool.and_eq_true, decide_eq_true_eq]
        exact ⟨hw.1, ih (by omega) hw.2⟩

/-- Every write keeps the canonical form. -/
theorem Memory.wf_write {m : Memory} (a : Word) (b : Byte) (hw : m.wf = true) : (m.write a b).wf = true :=
  Memory.wfFrom_put b a.isLt (Nat.zero_le _) hw

/-- A byte nothing has written reads as the platform's (U13). -/
theorem Memory.read_unwritten {m : Memory} {a : Word} (h : Memory.find m a.toNat = none) :
    m.read a = Config.platformByte a.toNat := by
  simp [Memory.read, h]

end Sys2Proof.Machine
end

