-- ==== Sys2Proof/Laws/State.lean ====
section
/-!
SUPPORT. One lemma per field per update of the state, and the same for the block memory operations, so that no proof
unfolds a record update.
-/
namespace Sys2Proof.Machine

variable (s : State)

@[simp] theorem State.memWrite_session (a : Word) (b : Byte) : (s.memWrite a b).session = s.session := rfl
@[simp] theorem State.memWrite_order (a : Word) (b : Byte) : (s.memWrite a b).order = s.order := rfl
@[simp] theorem State.memWrite_base (a : Word) (b : Byte) : (s.memWrite a b).base = s.base := rfl
@[simp] theorem State.memWrite_size (a : Word) (b : Byte) : (s.memWrite a b).size = s.size := rfl
@[simp] theorem State.memWrite_pos (a : Word) (b : Byte) : (s.memWrite a b).pos = s.pos := rfl
@[simp] theorem State.memWrite_fatal (a : Word) (b : Byte) : (s.memWrite a b).fatal = s.fatal := rfl
@[simp] theorem State.memWrite_cause (a : Word) (b : Byte) : (s.memWrite a b).cause = s.cause := rfl
@[simp] theorem State.memWrite_mem (a : Word) (b : Byte) : (s.memWrite a b).mem = s.mem.write a b := rfl
@[simp] theorem State.memWrite_program (a : Word) (b : Byte) : (s.memWrite a b).program = s.program := rfl
@[simp] theorem State.memWrite_index (a : Word) (b : Byte) : (s.memWrite a b).index = s.index := rfl
@[simp] theorem State.memWrite_rsp (a : Word) (b : Byte) : (s.memWrite a b).rsp = s.rsp := rfl
@[simp] theorem State.memWrite_accesses (a : Word) (b : Byte) : (s.memWrite a b).accesses = s.accesses ++ [.write a b] := rfl
@[simp] theorem State.memWrite_mutated (a : Word) (b : Byte) : (s.memWrite a b).mutated = s.mutated := rfl
@[simp] theorem State.memWrite_unanswered (a : Word) (b : Byte) : (s.memWrite a b).unanswered = s.unanswered := rfl

@[simp] theorem State.respond_session (v : Word) : (s.respond v).session = s.session := rfl
@[simp] theorem State.respond_order (v : Word) : (s.respond v).order = s.order := rfl
@[simp] theorem State.respond_base (v : Word) : (s.respond v).base = s.base := rfl
@[simp] theorem State.respond_size (v : Word) : (s.respond v).size = s.size := rfl
@[simp] theorem State.respond_pos (v : Word) : (s.respond v).pos = s.pos := rfl
@[simp] theorem State.respond_fatal (v : Word) : (s.respond v).fatal = s.fatal := rfl
@[simp] theorem State.respond_cause (v : Word) : (s.respond v).cause = s.cause := rfl
@[simp] theorem State.respond_mem (v : Word) : (s.respond v).mem = s.mem := rfl
@[simp] theorem State.respond_program (v : Word) : (s.respond v).program = s.program := rfl
@[simp] theorem State.respond_index (v : Word) : (s.respond v).index = s.index + 1 := rfl
@[simp] theorem State.respond_rsp (v : Word) : (s.respond v).rsp = some v := rfl
@[simp] theorem State.respond_accesses (v : Word) : (s.respond v).accesses = s.accesses := rfl
@[simp] theorem State.respond_mutated (v : Word) : (s.respond v).mutated = s.mutated := rfl
@[simp] theorem State.respond_unanswered (v : Word) : (s.respond v).unanswered = s.unanswered := rfl

@[simp] theorem State.raiseFatal_session (c : Cause) : (s.raiseFatal c).session = s.session := rfl
@[simp] theorem State.raiseFatal_order (c : Cause) : (s.raiseFatal c).order = s.order := rfl
@[simp] theorem State.raiseFatal_base (c : Cause) : (s.raiseFatal c).base = s.base := rfl
@[simp] theorem State.raiseFatal_size (c : Cause) : (s.raiseFatal c).size = s.size := rfl
@[simp] theorem State.raiseFatal_pos (c : Cause) : (s.raiseFatal c).pos = s.pos := rfl
@[simp] theorem State.raiseFatal_fatal (c : Cause) : (s.raiseFatal c).fatal = true := rfl
@[simp] theorem State.raiseFatal_cause (c : Cause) : (s.raiseFatal c).cause = c := rfl
@[simp] theorem State.raiseFatal_mem (c : Cause) : (s.raiseFatal c).mem = s.mem := rfl
@[simp] theorem State.raiseFatal_program (c : Cause) : (s.raiseFatal c).program = s.program := rfl
@[simp] theorem State.raiseFatal_index (c : Cause) : (s.raiseFatal c).index = s.index := rfl
@[simp] theorem State.raiseFatal_rsp (c : Cause) : (s.raiseFatal c).rsp = none := rfl
@[simp] theorem State.raiseFatal_accesses (c : Cause) : (s.raiseFatal c).accesses = s.accesses := rfl
@[simp] theorem State.raiseFatal_mutated (c : Cause) : (s.raiseFatal c).mutated = s.mutated := rfl
@[simp] theorem State.raiseFatal_unanswered (c : Cause) : (s.raiseFatal c).unanswered = s.unanswered := rfl

@[simp] theorem State.resetBlock_session : (s.resetBlock).session = .none := rfl
@[simp] theorem State.resetBlock_order : (s.resetBlock).order = .le := rfl
@[simp] theorem State.resetBlock_base : (s.resetBlock).base = 0 := rfl
@[simp] theorem State.resetBlock_size : (s.resetBlock).size = 0 := rfl
@[simp] theorem State.resetBlock_pos : (s.resetBlock).pos = 0 := rfl
@[simp] theorem State.resetBlock_fatal : (s.resetBlock).fatal = false := rfl
@[simp] theorem State.resetBlock_cause : (s.resetBlock).cause = .none := rfl
@[simp] theorem State.resetBlock_mem : (s.resetBlock).mem = s.mem := rfl
@[simp] theorem State.resetBlock_program : (s.resetBlock).program = s.program := rfl
@[simp] theorem State.resetBlock_index : (s.resetBlock).index = s.index := rfl
@[simp] theorem State.resetBlock_rsp : (s.resetBlock).rsp = none := rfl
@[simp] theorem State.resetBlock_accesses : (s.resetBlock).accesses = s.accesses := rfl
@[simp] theorem State.resetBlock_mutated : (s.resetBlock).mutated = s.mutated := rfl
@[simp] theorem State.resetBlock_unanswered : (s.resetBlock).unanswered = s.unanswered := rfl

@[simp] theorem State.accept_session : (s.accept).session = s.session := rfl
@[simp] theorem State.accept_order : (s.accept).order = s.order := rfl
@[simp] theorem State.accept_base : (s.accept).base = s.base := rfl
@[simp] theorem State.accept_size : (s.accept).size = s.size := rfl
@[simp] theorem State.accept_pos : (s.accept).pos = s.pos := rfl
@[simp] theorem State.accept_fatal : (s.accept).fatal = s.fatal := rfl
@[simp] theorem State.accept_cause : (s.accept).cause = s.cause := rfl
@[simp] theorem State.accept_mem : (s.accept).mem = s.mem := rfl
@[simp] theorem State.accept_program : (s.accept).program = s.program := rfl
@[simp] theorem State.accept_index : (s.accept).index = s.index := rfl
@[simp] theorem State.accept_rsp : (s.accept).rsp = none := rfl
@[simp] theorem State.accept_accesses : (s.accept).accesses = [] := rfl
@[simp] theorem State.accept_mutated : (s.accept).mutated = s.mutated := rfl
@[simp] theorem State.accept_unanswered : (s.accept).unanswered = s.unanswered := rfl

@[simp] theorem State.advance_session (n : Word) : (s.advance n).session = s.session := rfl
@[simp] theorem State.advance_order (n : Word) : (s.advance n).order = s.order := rfl
@[simp] theorem State.advance_base (n : Word) : (s.advance n).base = s.base := rfl
@[simp] theorem State.advance_size (n : Word) : (s.advance n).size = s.size := rfl
@[simp] theorem State.advance_pos (n : Word) : (s.advance n).pos = s.pos + n := rfl
@[simp] theorem State.advance_fatal (n : Word) : (s.advance n).fatal = s.fatal := rfl
@[simp] theorem State.advance_cause (n : Word) : (s.advance n).cause = s.cause := rfl
@[simp] theorem State.advance_mem (n : Word) : (s.advance n).mem = s.mem := rfl
@[simp] theorem State.advance_program (n : Word) : (s.advance n).program = s.program := rfl
@[simp] theorem State.advance_index (n : Word) : (s.advance n).index = s.index := rfl
@[simp] theorem State.advance_rsp (n : Word) : (s.advance n).rsp = s.rsp := rfl
@[simp] theorem State.advance_accesses (n : Word) : (s.advance n).accesses = s.accesses := rfl
@[simp] theorem State.advance_mutated (n : Word) : (s.advance n).mutated = s.mutated := rfl
@[simp] theorem State.advance_unanswered (n : Word) : (s.advance n).unanswered = s.unanswered := rfl

@[simp] theorem State.takeReset_session : (s.takeReset).session = .none := rfl
@[simp] theorem State.takeReset_order : (s.takeReset).order = .le := rfl
@[simp] theorem State.takeReset_base : (s.takeReset).base = 0 := rfl
@[simp] theorem State.takeReset_size : (s.takeReset).size = 0 := rfl
@[simp] theorem State.takeReset_pos : (s.takeReset).pos = 0 := rfl
@[simp] theorem State.takeReset_fatal : (s.takeReset).fatal = false := rfl
@[simp] theorem State.takeReset_cause : (s.takeReset).cause = .none := rfl
@[simp] theorem State.takeReset_mem : (s.takeReset).mem = s.mem := rfl
@[simp] theorem State.takeReset_program : (s.takeReset).program = s.program := rfl
@[simp] theorem State.takeReset_index : (s.takeReset).index = s.index + (if s.fatal then 2 else 1) := rfl
@[simp] theorem State.takeReset_rsp : (s.takeReset).rsp = none := rfl
@[simp] theorem State.takeReset_accesses : (s.takeReset).accesses = s.accesses := rfl
@[simp] theorem State.takeReset_mutated : (s.takeReset).mutated = s.mutated := rfl
@[simp] theorem State.takeReset_unanswered : (s.takeReset).unanswered = (if s.fatal then s.index :: s.unanswered else s.unanswered) := rfl

@[simp] theorem State.platformStore_session (a : Word) (b : Byte) : (s.platformStore a b).session = s.session := rfl
@[simp] theorem State.platformStore_order (a : Word) (b : Byte) : (s.platformStore a b).order = s.order := rfl
@[simp] theorem State.platformStore_base (a : Word) (b : Byte) : (s.platformStore a b).base = s.base := rfl
@[simp] theorem State.platformStore_size (a : Word) (b : Byte) : (s.platformStore a b).size = s.size := rfl
@[simp] theorem State.platformStore_pos (a : Word) (b : Byte) : (s.platformStore a b).pos = s.pos := rfl
@[simp] theorem State.platformStore_fatal (a : Word) (b : Byte) : (s.platformStore a b).fatal = s.fatal := rfl
@[simp] theorem State.platformStore_cause (a : Word) (b : Byte) : (s.platformStore a b).cause = s.cause := rfl
@[simp] theorem State.platformStore_mem (a : Word) (b : Byte) : (s.platformStore a b).mem = s.mem.write a b := rfl
@[simp] theorem State.platformStore_program (a : Word) (b : Byte) : (s.platformStore a b).program = s.program := rfl
@[simp] theorem State.platformStore_index (a : Word) (b : Byte) : (s.platformStore a b).index = s.index + 1 := rfl
@[simp] theorem State.platformStore_rsp (a : Word) (b : Byte) : (s.platformStore a b).rsp = s.rsp := rfl
@[simp] theorem State.platformStore_accesses (a : Word) (b : Byte) : (s.platformStore a b).accesses = s.accesses := rfl
@[simp] theorem State.platformStore_mutated (a : Word) (b : Byte) : (s.platformStore a b).mutated = (if s.inBuffer a then s.view :: s.mutated else s.mutated) := rfl
@[simp] theorem State.platformStore_unanswered (a : Word) (b : Byte) : (s.platformStore a b).unanswered = s.unanswered := rfl

@[simp] theorem openEffect_session (k : Session) (e : ByteOrder) : (openEffect k e s).session = k := rfl
@[simp] theorem openEffect_order (k : Session) (e : ByteOrder) : (openEffect k e s).order = e := rfl
@[simp] theorem openEffect_base (k : Session) (e : ByteOrder) : (openEffect k e s).base = s.operandA := rfl
@[simp] theorem openEffect_size (k : Session) (e : ByteOrder) : (openEffect k e s).size = s.operandB := rfl
@[simp] theorem openEffect_pos (k : Session) (e : ByteOrder) : (openEffect k e s).pos = 0 := rfl
@[simp] theorem openEffect_fatal (k : Session) (e : ByteOrder) : (openEffect k e s).fatal = s.fatal := rfl
@[simp] theorem openEffect_cause (k : Session) (e : ByteOrder) : (openEffect k e s).cause = s.cause := rfl
@[simp] theorem openEffect_mem (k : Session) (e : ByteOrder) : (openEffect k e s).mem = s.mem := rfl
@[simp] theorem openEffect_program (k : Session) (e : ByteOrder) : (openEffect k e s).program = s.program := rfl
@[simp] theorem openEffect_index (k : Session) (e : ByteOrder) : (openEffect k e s).index = s.index + 1 := rfl
@[simp] theorem openEffect_rsp (k : Session) (e : ByteOrder) : (openEffect k e s).rsp = some 0 := rfl
@[simp] theorem openEffect_accesses (k : Session) (e : ByteOrder) : (openEffect k e s).accesses = s.accesses := rfl
@[simp] theorem openEffect_mutated (k : Session) (e : ByteOrder) : (openEffect k e s).mutated = s.mutated := rfl
@[simp] theorem openEffect_unanswered (k : Session) (e : ByteOrder) : (openEffect k e s).unanswered = s.unanswered := rfl

end Sys2Proof.Machine
end

