-- ==== Sys2Proof/Laws/Ops.lean ====
section
/-!
SUPPORT. One lemma per shared operation that says everything it does: slices of addresses, reads, writes, bulk copies,
and the frame of a command.
-/
namespace Sys2Proof.Machine

/-! ### Addresses of a slice -/

@[simp] theorem addr_zero (a : Word) : addr a 0 = a := by simp [addr]

theorem addr_succ (a : Word) (i : Nat) : addr (a + 1#64) i = addr a (i + 1) := by
  unfold addr
  rw [BitVec.add_assoc]
  congr 1
  apply BitVec.eq_of_toNat_eq
  simp [Nat.add_comm]

theorem addr_eq_iff (a b : Word) (i : Nat) (hi : i < 2 ^ 64) : addr a i = b ↔ (b - a).toNat = i := by
  unfold addr
  constructor
  · rintro rfl
    have : a + BitVec.ofNat 64 i - a = BitVec.ofNat 64 i := by
      rw [BitVec.add_comm, BitVec.add_sub_cancel]
    rw [this, BitVec.toNat_ofNat, Nat.mod_eq_of_lt hi]
  · rintro rfl
    rw [BitVec.ofNat_toNat, BitVec.setWidth_eq, BitVec.add_comm, BitVec.sub_add_cancel]

theorem addr_inj {a : Word} {i j : Nat} (hi : i < 2 ^ 64) (hj : j < 2 ^ 64) (h : addr a i = addr a j) : i = j := by
  rw [← (addr_eq_iff a _ i hi).1 rfl, ← (addr_eq_iff a _ j hj).1 rfl, h]

theorem Outside.succ {a c : Word} {n : Nat} (h : Outside a (n + 1) c) : Outside (a + 1#64) n c := by
  intro i hi
  rw [addr_succ]
  exact h (i + 1) (by omega)

@[simp] theorem Access.isWrite_read (a : Word) : (Access.read a).isWrite = false := rfl
@[simp] theorem Access.isWrite_write (a : Word) (b : Byte) : (Access.write a b).isWrite = true := rfl
@[simp] theorem Access.address_read (a : Word) : (Access.read a).address = a := rfl
@[simp] theorem Access.address_write (a : Word) (b : Byte) : (Access.write a b).address = a := rfl

/-! ### One byte -/

theorem State.byteAt_congr {s t : State} (hm : t.mem = s.mem) (hu : t.mutated = s.mutated) (hi : t.index = s.index)
    (a : Word) : t.byteAt a = s.byteAt a := by
  simp [State.byteAt, State.unsettled, hm, hu, hi]

theorem State.byteAt_settled {s : State} {a : Word} (h : s.unsettled a = false) : s.byteAt a = s.mem.read a := by
  simp [State.byteAt, h]

theorem State.byteAt_unmutated {s : State} (h : s.mutated = []) (a : Word) : s.byteAt a = s.mem.read a :=
  State.byteAt_settled (by simp [State.unsettled, h])

theorem State.byteAt_memWrite (s : State) (a c : Word) (b : Byte) :
    (s.memWrite a b).byteAt c = if a = c ∧ s.unsettled c = false then b else s.byteAt c := by
  simp only [State.byteAt, State.unsettled, State.memWrite_mutated, State.memWrite_index, State.memWrite_mem,
    Memory.read_write]
  by_cases hu : (s.mutated.any fun x => x.contains c) = true
  · simp [hu]
  · simp [hu]

/-! ### Gets -/

theorem State.bytesFrom_succ (s : State) (a : Word) (n : Nat) :
    s.bytesFrom a (n + 1) = s.byteAt a :: s.bytesFrom (a + 1#64) n := by
  simp [State.bytesFrom, List.range_succ_eq_map, Function.comp_def, addr_succ]

theorem State.bytesFrom_congr {s t : State} (hm : t.mem = s.mem) (hu : t.mutated = s.mutated)
    (hi : t.index = s.index) (a : Word) (n : Nat) : t.bytesFrom a n = s.bytesFrom a n := by
  simp [State.bytesFrom, State.byteAt_congr hm hu hi]

theorem readsFrom_succ (a : Word) (n : Nat) : readsFrom a (n + 1) = .read a :: readsFrom (a + 1#64) n := by
  simp [readsFrom, List.range_succ_eq_map, Function.comp_def, addr_succ]

/-- A get reads the bytes of its slice in order and changes nothing but the access record. -/
theorem State.readSlice_eq (s : State) (n : Nat) (a : Word) :
    s.readSlice n a = (s.bytesFrom a n, { s with accesses := s.accesses ++ readsFrom a n }) := by
  induction n generalizing s a with
  | zero => simp [State.readSlice, State.bytesFrom, readsFrom]
  | succ n ih =>
    simp only [State.readSlice, State.memRead, ih, State.bytesFrom_succ, readsFrom_succ]
    congr 1
    simp

/-! ### Puts -/

theorem writesFrom_cons (a : Word) (b : Byte) (bs : List Byte) :
    writesFrom a (b :: bs) = .write a b :: writesFrom (a + 1#64) bs := by
  simp [writesFrom, List.zipIdx_cons, List.zipIdx_succ, Function.comp_def, addr_succ]

theorem StoresExactly.nil (m : Memory) (a : Word) : StoresExactly m m a [] := by
  constructor <;> simp

/-- Storing a byte and then others after it stores them all, as long as the slice does not meet itself. -/
theorem StoresExactly.cons {m m' : Memory} {a : Word} {b : Byte} {bs : List Byte} (hn : bs.length < 2 ^ 64)
    (h : StoresExactly (m.write a b) m' (a + 1#64) bs) : StoresExactly m m' a (b :: bs) := by
  constructor
  · intro j hj
    cases j with
    | zero =>
      have hout : Outside (a + 1#64) bs.length a := by
        intro i hi hEq
        rw [addr_succ] at hEq
        have := addr_inj (a := a) (i := 0) (j := i + 1) (by omega) (by omega) (by simpa using hEq)
        omega
      simpa using h.2 a hout
    | succ j => simpa [addr_succ] using h.1 j (by simpa using hj)
  · intro c hc
    rw [h.2 c hc.succ, Memory.read_write_other]
    simpa using hc 0 (by simp)

/-- A put stores its bytes, records its writes in order, and changes nothing else. -/
theorem State.writeSlice_spec (s : State) (bs : List Byte) (a : Word) (hn : bs.length ≤ 2 ^ 64) :
    StoresExactly s.mem (s.writeSlice bs a).mem a bs ∧
      s.writeSlice bs a =
        { s with mem := (s.writeSlice bs a).mem, accesses := s.accesses ++ writesFrom a bs } := by
  induction bs generalizing s a with
  | nil => exact ⟨StoresExactly.nil _ _, by simp [State.writeSlice, writesFrom]⟩
  | cons b bs ih =>
    simp only [List.length_cons] at hn
    obtain ⟨hst, heq⟩ := ih (s.memWrite a b) (a + 1#64) (by omega)
    refine ⟨StoresExactly.cons (by omega) hst, ?_⟩
    simp only [State.writeSlice, writesFrom_cons]
    rw [heq]
    simp [State.memWrite]

theorem State.writeSlice_wf (s : State) (bs : List Byte) (a : Word) (hw : s.mem.wf = true) :
    (s.writeSlice bs a).mem.wf = true := by
  induction bs generalizing s a with
  | nil => exact hw
  | cons b bs ih => exact ih _ _ (Memory.wf_write a b hw)

/-! ### Bulk copies -/

theorem copiesFrom_cons (src dst : Word) (b : Byte) (bs : List Byte) :
    copiesFrom src dst (b :: bs) = .read src :: .write dst b :: copiesFrom (src + 1#64) (dst + 1#64) bs := by
  simp [copiesFrom, List.zipIdx_cons, List.zipIdx_succ, List.flatMap_map, addr_succ]

theorem add_one_sub_add_one (a b : Word) : (a + 1#64) - (b + 1#64) = a - b := by
  apply BitVec.eq_of_toNat_eq
  simp only [BitVec.toNat_sub, BitVec.toNat_add]
  have := a.isLt
  have := b.isLt
  simp
  omega

/-- The bytes of a copy, from its first byte and the bytes of the copy that follows it. -/
theorem CopiedBytes.cons {s : State} {src dst : Word} {bs : List Byte} (hn : bs.length < 2 ^ 64)
    (h : CopiedBytes ((s.memRead src).2.memWrite dst (s.byteAt src)) (src + 1#64) (dst + 1#64) bs) :
    CopiedBytes s src dst (s.byteAt src :: bs) := by
  intro j hj
  cases j with
  | zero => simp
  | succ j =>
    have hj' : j < bs.length := by simpa using hj
    have hs := h j hj'
    rw [add_one_sub_add_one, addr_succ] at hs
    rw [List.getElem?_cons_succ, hs]
    have hunset : ∀ c, ((s.memRead src).2.memWrite dst (s.byteAt src)).unsettled c = s.unsettled c := fun _ => rfl
    rw [hunset, State.byteAt_memWrite]
    have hread : ∀ c, (s.memRead src).2.byteAt c = s.byteAt c := fun c => State.byteAt_congr rfl rfl rfl c
    have hunset' : ∀ c, (s.memRead src).2.unsettled c = s.unsettled c := fun _ => rfl
    rw [hread, hunset']
    have hdst : dst = addr src (j + 1) ↔ (dst - src).toNat = j + 1 := by
      rw [eq_comm]; exact addr_eq_iff src dst (j + 1) (by omega)
    generalize (dst - src).toNat = d at *
    generalize hu : s.unsettled (addr src (j + 1)) = u
    cases u
    · by_cases hd0 : 0 < d
      · rcases Nat.lt_trichotomy d (j + 1) with hlt | heq | hgt
        · have e1 : j + 1 - d = (j - d) + 1 := by omega
          rw [if_pos ⟨hd0, by omega, rfl⟩, if_pos ⟨hd0, by omega, rfl⟩, e1, List.getElem?_cons_succ]
        · have hne : ¬ d ≤ j := by omega
          rw [if_neg (by omega), if_pos ⟨hdst.2 heq, rfl⟩, if_pos ⟨hd0, by omega, rfl⟩, heq]
          simp
        · rw [if_neg (by omega), if_neg (by rw [hdst]; omega), if_neg (by omega)]
      · rw [if_neg (by omega), if_neg (by rw [hdst]; omega), if_neg (by omega)]
    · simp

/-- A bulk copy moves the bytes `CopiedBytes` describes, stores exactly those, records each read and write in its
interleaved order, and changes nothing else (R59, R160). -/
theorem State.copySlice_spec (s : State) (n : Nat) (src dst : Word) (hn : n ≤ 2 ^ 64) :
    ∃ bs : List Byte, bs.length = n ∧ CopiedBytes s src dst bs ∧
      StoresExactly s.mem (s.copySlice n src dst).mem dst bs ∧
      s.copySlice n src dst =
        { s with mem := (s.copySlice n src dst).mem, accesses := s.accesses ++ copiesFrom src dst bs } := by
  induction n generalizing s src dst with
  | zero =>
    refine ⟨[], rfl, ?_, StoresExactly.nil _ _, ?_⟩
    · intro j hj; simp at hj
    · simp [State.copySlice, copiesFrom]
  | succ n ih =>
    obtain ⟨bs, hlen, hcopied, hst, heq⟩ :=
      ih ((s.memRead src).2.memWrite dst (s.memRead src).1) (src + 1#64) (dst + 1#64) (by omega)
    refine ⟨s.byteAt src :: bs, by simp [hlen], CopiedBytes.cons (by omega) hcopied,
      StoresExactly.cons (by omega) hst, ?_⟩
    simp only [State.copySlice, copiesFrom_cons]
    rw [heq]
    simp [State.memWrite, State.memRead]

theorem State.copySlice_wf (s : State) (n : Nat) (src dst : Word) (hw : s.mem.wf = true) :
    (s.copySlice n src dst).mem.wf = true := by
  induction n generalizing s src dst with
  | zero => exact hw
  | succ n ih => exact ih _ _ _ (Memory.wf_write dst _ hw)

/-- The writes of a put leave the record of unanswered commands. -/
@[simp] theorem State.writeSlice_unanswered (s : State) (bs : List Byte) (a : Word) :
    (s.writeSlice bs a).unanswered = s.unanswered := by
  induction bs generalizing s a with
  | nil => rfl
  | cons b bs ih => exact ih _ _

/-- A bulk copy leaves the record of unanswered commands. -/
@[simp] theorem State.copySlice_unanswered (s : State) (n : Nat) (src dst : Word) :
    (s.copySlice n src dst).unanswered = s.unanswered := by
  induction n generalizing s src dst with
  | zero => rfl
  | succ n ih => exact ih _ _ _

end Sys2Proof.Machine
end

