-- ==== Sys2Proof/Laws/Exec.lean ====
section
/-!
SUPPORT. What executing an instruction can do, said once: every meaning is the frame `runChecked` around its command's
checks and effect.
-/
namespace Sys2Proof.Machine

/-- The effect of a command whose checks pass. -/
def effectOf : Command → State → State
  | .cget t e => cgetEffect t e
  | .cput t e => cputEffect t e
  | .openr e => openEffect .reader e
  | .openw e => openEffect .writer e
  | .read t => readEffect t
  | .write t => writeEffect t
  | .readb => readbEffect
  | .writeb => writebEffect
  | .size => sizeEffect
  | .pos => posEffect
  | .seek => seekEffect

theorem exec_eq_runChecked (i : Instr) (s : State) :
    exec i s = runChecked (checkOf i.command) (effectOf i.command) s := by
  cases i <;> rfl

@[simp] theorem command_instr (c : Command) : c.instr.command = c := by
  rcases c with ⟨t, e⟩ | ⟨t, e⟩ | e | e | t | t | _ | _ | _ | _ | _ <;> first | rfl | (cases t <;> rfl)

@[simp] theorem instr_command (i : Instr) : i.command.instr = i := by cases i <;> rfl

theorem runChecked_halted {check : State → Option Cause} {effect : State → State} {s : State}
    (h : s.fatal = true) : runChecked check effect s = .fault .halted := by
  simp [runChecked, h]

theorem runChecked_fail {check : State → Option Cause} {effect : State → State} {s : State} {c : Cause}
    (h : s.fatal = false) (hc : check s = some c) : runChecked check effect s = .next (s.raiseFatal c) := by
  simp [runChecked, h, hc]

theorem runChecked_pass {check : State → Option Cause} {effect : State → State} {s : State}
    (h : s.fatal = false) (hc : check s = none) : runChecked check effect s = .next (effect s) := by
  simp [runChecked, h, hc]

/-- The inversion of `exec`: a next state is the fatal entry for the failing check, or the effect. -/
theorem exec_cases {i : Instr} {s t : State} (h : exec i s = .next t) :
    s.fatal = false ∧
      ((∃ c, checkOf i.command s = some c ∧ t = s.raiseFatal c) ∨
        (checkOf i.command s = none ∧ t = effectOf i.command s)) := by
  rw [exec_eq_runChecked] at h
  unfold runChecked at h
  split at h
  · cases h
  · rename_i hf
    refine ⟨by simpa using hf, ?_⟩
    split at h
    · rename_i c hc
      exact .inl ⟨c, hc, by cases h; rfl⟩
    · rename_i hc
      exact .inr ⟨hc, by cases h; rfl⟩

/-- The session check as a table (R196). -/
theorem sessionCheck_eq_none (need : Need) (s : State) :
    sessionCheck need s = none ↔
      s.session ≠ .none ∧ (need = .reader → s.session = .reader) ∧ (need = .writer → s.session = .writer) := by
  unfold sessionCheck
  split <;> simp_all

@[simp] theorem nullCheck_eq_none (a : Word) : nullCheck a = none ↔ a ≠ 0 := by simp [nullCheck]

@[simp] theorem capacityCheck_eq_none (n : Nat) (s : State) : capacityCheck n s = none ↔ n ≤ s.remaining := by
  simp [capacityCheck]

/-- The effect of CGET as one record update. -/
theorem cgetEffect_eq (t : Tag) (e : ByteOrder) (s : State) :
    cgetEffect t e s = { s with
      rsp := some (decodeBytes e t (s.bytesFrom s.operandA t.byteLen))
      accesses := s.accesses ++ readsFrom s.operandA t.byteLen
      index := s.index + 1 } := by
  simp [cgetEffect, State.readSlice_eq, State.respond]

/-- The effect of READ as one record update. -/
theorem readEffect_eq (t : Tag) (s : State) :
    readEffect t s = { s with
      pos := s.pos + BitVec.ofNat 64 t.byteLen
      rsp := some (decodeBytes s.order t (s.bytesFrom s.cursor t.byteLen))
      accesses := s.accesses ++ readsFrom s.cursor t.byteLen
      index := s.index + 1 } := by
  simp [readEffect, State.readSlice_eq, State.respond, State.advance]

@[simp] theorem length_encodeBytes (e : ByteOrder) (t : Tag) (v : Word) : (encodeBytes e t v).length = t.byteLen := by
  simp [encodeBytes]

theorem Tag.byteLen_pos (t : Tag) : 1 ≤ t.byteLen ∧ t.byteLen ≤ 8 := by cases t <;> decide

/-- The effect of CPUT: its bytes stored, and one record update otherwise. -/
theorem cputEffect_spec (t : Tag) (e : ByteOrder) (s : State) :
    StoresExactly s.mem (cputEffect t e s).mem s.operandA (encodeBytes e t s.operandB) ∧
      cputEffect t e s = { s with
        mem := (cputEffect t e s).mem
        rsp := some 0
        accesses := s.accesses ++ writesFrom s.operandA (encodeBytes e t s.operandB)
        index := s.index + 1 } := by
  have hn := Tag.byteLen_pos t
  obtain ⟨hst, heq⟩ := s.writeSlice_spec (encodeBytes e t s.operandB) s.operandA (by simp; omega)
  refine ⟨hst, ?_⟩
  unfold cputEffect
  rw [heq]
  simp [State.respond]

/-- The effect of WRITE: its bytes stored, and one record update otherwise. -/
theorem writeEffect_spec (t : Tag) (s : State) :
    StoresExactly s.mem (writeEffect t s).mem s.cursor (encodeBytes s.order t s.operandB) ∧
      writeEffect t s = { s with
        mem := (writeEffect t s).mem
        pos := s.pos + BitVec.ofNat 64 t.byteLen
        rsp := some 0
        accesses := s.accesses ++ writesFrom s.cursor (encodeBytes s.order t s.operandB)
        index := s.index + 1 } := by
  have hn := Tag.byteLen_pos t
  obtain ⟨hst, heq⟩ := s.writeSlice_spec (encodeBytes s.order t s.operandB) s.cursor (by simp; omega)
  refine ⟨hst, ?_⟩
  unfold writeEffect
  rw [heq]
  simp [State.respond, State.advance]

/-- A copy through the cursor followed by its advance and response: the bytes copied, and one record update. -/
theorem copyRespond_spec (s : State) (src dst : Word) :
    ∃ bs : List Byte, bs.length = s.operandB.toNat ∧ CopiedBytes s src dst bs ∧
      StoresExactly s.mem (((s.copySlice s.operandB.toNat src dst).advance s.operandB).respond 0).mem dst bs ∧
      ((s.copySlice s.operandB.toNat src dst).advance s.operandB).respond 0 = { s with
        mem := (((s.copySlice s.operandB.toNat src dst).advance s.operandB).respond 0).mem
        pos := s.pos + s.operandB
        rsp := some 0
        accesses := s.accesses ++ copiesFrom src dst bs
        index := s.index + 1 } := by
  obtain ⟨bs, hlen, hc, hst, heq⟩ := s.copySlice_spec s.operandB.toNat src dst (by omega)
  refine ⟨bs, hlen, hc, hst, ?_⟩
  rw [heq]
  simp [State.respond, State.advance]

/-- Every effect leaves FATAL, CAUSE, the host's list and the mutated views alone, gives a response and advances the
index. -/
theorem effectOf_frame (c : Command) (s : State) :
    (effectOf c s).fatal = s.fatal ∧ (effectOf c s).cause = s.cause ∧ (effectOf c s).program = s.program ∧
      (effectOf c s).mutated = s.mutated ∧ (effectOf c s).index = s.index + 1 ∧
      (effectOf c s).rsp.isSome = true := by
  cases c with
  | cget t e => simp [effectOf, cgetEffect_eq]
  | cput t e => simp only [effectOf]; rw [(cputEffect_spec t e s).2]; simp
  | openr e => simp [effectOf]
  | openw e => simp [effectOf]
  | read t => simp [effectOf, readEffect_eq]
  | write t => simp only [effectOf]; rw [(writeEffect_spec t s).2]; simp
  | readb =>
    obtain ⟨bs, -, -, -, h⟩ := copyRespond_spec s s.cursor s.operandA
    simp only [effectOf, readbEffect]; rw [h]; simp
  | writeb =>
    obtain ⟨bs, -, -, -, h⟩ := copyRespond_spec s s.operandA s.cursor
    simp only [effectOf, writebEffect]; rw [h]; simp
  | size => simp [effectOf, sizeEffect]
  | pos => simp [effectOf, posEffect]
  | seek => simp [effectOf, seekEffect, State.respond]

/-- No effect touches the record of unanswered commands. -/
@[simp] theorem effectOf_unanswered (c : Command) (s : State) : (effectOf c s).unanswered = s.unanswered := by
  cases c with
  | cget t e => simp [effectOf, cgetEffect_eq]
  | cput t e => simp [effectOf, cputEffect]
  | openr e => simp [effectOf]
  | openw e => simp [effectOf]
  | read t => simp [effectOf, readEffect_eq]
  | write t => simp [effectOf, writeEffect]
  | readb => simp [effectOf, readbEffect]
  | writeb => simp [effectOf, writebEffect]
  | size => simp [effectOf, sizeEffect]
  | pos => simp [effectOf, posEffect]
  | seek => simp [effectOf, seekEffect, State.respond]

end Sys2Proof.Machine
end

