-- ==== Sys2Proof/Laws/PerInstr.lean ====
section
/-!
SUPPORT. One lemma per constructor of `Instr`: the word it is encoded to is legal bit for bit, as its row of
spec/opcode_table.json gives it.
-/
namespace Sys2Proof.Laws

/-- The bits a row of spec/opcode_table.json fixes: its `match`, under its `mask`. -/
def rowBits : Instr → CommandWord × CommandWord
  | .cgetU8 _ => (0x00000001, 0xFFFFFEFF)
  | .cgetU16 _ => (0x00000011, 0xFFFFFEFF)
  | .cgetU24 _ => (0x00000021, 0xFFFFFEFF)
  | .cgetU32 _ => (0x00000031, 0xFFFFFEFF)
  | .cgetU40 _ => (0x00000041, 0xFFFFFEFF)
  | .cgetU48 _ => (0x00000051, 0xFFFFFEFF)
  | .cgetU56 _ => (0x00000061, 0xFFFFFEFF)
  | .cgetU64 _ => (0x00000071, 0xFFFFFEFF)
  | .cgetI8 _ => (0x00000081, 0xFFFFFEFF)
  | .cgetI16 _ => (0x00000091, 0xFFFFFEFF)
  | .cgetI32 _ => (0x000000B1, 0xFFFFFEFF)
  | .cgetI64 _ => (0x000000F1, 0xFFFFFEFF)
  | .cputU8 _ => (0x00000002, 0xFFFFFEFF)
  | .cputU16 _ => (0x00000012, 0xFFFFFEFF)
  | .cputU24 _ => (0x00000022, 0xFFFFFEFF)
  | .cputU32 _ => (0x00000032, 0xFFFFFEFF)
  | .cputU40 _ => (0x00000042, 0xFFFFFEFF)
  | .cputU48 _ => (0x00000052, 0xFFFFFEFF)
  | .cputU56 _ => (0x00000062, 0xFFFFFEFF)
  | .cputU64 _ => (0x00000072, 0xFFFFFEFF)
  | .cputI8 _ => (0x00000082, 0xFFFFFEFF)
  | .cputI16 _ => (0x00000092, 0xFFFFFEFF)
  | .cputI32 _ => (0x000000B2, 0xFFFFFEFF)
  | .cputI64 _ => (0x000000F2, 0xFFFFFEFF)
  | .openr _ => (0x00000003, 0xFFFFFEFF)
  | .openw _ => (0x00000004, 0xFFFFFEFF)
  | .readU8 => (0x00000005, 0xFFFFFFFF)
  | .readU16 => (0x00000015, 0xFFFFFFFF)
  | .readU24 => (0x00000025, 0xFFFFFFFF)
  | .readU32 => (0x00000035, 0xFFFFFFFF)
  | .readU40 => (0x00000045, 0xFFFFFFFF)
  | .readU48 => (0x00000055, 0xFFFFFFFF)
  | .readU56 => (0x00000065, 0xFFFFFFFF)
  | .readU64 => (0x00000075, 0xFFFFFFFF)
  | .readI8 => (0x00000085, 0xFFFFFFFF)
  | .readI16 => (0x00000095, 0xFFFFFFFF)
  | .readI32 => (0x000000B5, 0xFFFFFFFF)
  | .readI64 => (0x000000F5, 0xFFFFFFFF)
  | .writeU8 => (0x00000006, 0xFFFFFFFF)
  | .writeU16 => (0x00000016, 0xFFFFFFFF)
  | .writeU24 => (0x00000026, 0xFFFFFFFF)
  | .writeU32 => (0x00000036, 0xFFFFFFFF)
  | .writeU40 => (0x00000046, 0xFFFFFFFF)
  | .writeU48 => (0x00000056, 0xFFFFFFFF)
  | .writeU56 => (0x00000066, 0xFFFFFFFF)
  | .writeU64 => (0x00000076, 0xFFFFFFFF)
  | .writeI8 => (0x00000086, 0xFFFFFFFF)
  | .writeI16 => (0x00000096, 0xFFFFFFFF)
  | .writeI32 => (0x000000B6, 0xFFFFFFFF)
  | .writeI64 => (0x000000F6, 0xFFFFFFFF)
  | .readb => (0x00000007, 0xFFFFFFFF)
  | .writeb => (0x00000008, 0xFFFFFFFF)
  | .size => (0x00000009, 0xFFFFFFFF)
  | .pos => (0x0000000A, 0xFFFFFFFF)
  | .seek => (0x0000000B, 0xFFFFFFFF)

/-- The encoded word has its row's fixed bits, and the reserved bits of R76 are 0. -/
def EncodesLegally.Statement (i : Instr) : Prop :=
  encode i &&& (rowBits i).2 = (rowBits i).1 ∧ (encode i).extractLsb' 9 23 = 0

theorem EncodesLegally.cgetU8 (e : ByteOrder) : EncodesLegally.Statement (.cgetU8 e) := by
  cases e <;> exact ⟨rfl, rfl⟩

theorem EncodesLegally.cgetU16 (e : ByteOrder) : EncodesLegally.Statement (.cgetU16 e) := by
  cases e <;> exact ⟨rfl, rfl⟩

theorem EncodesLegally.cgetU24 (e : ByteOrder) : EncodesLegally.Statement (.cgetU24 e) := by
  cases e <;> exact ⟨rfl, rfl⟩

theorem EncodesLegally.cgetU32 (e : ByteOrder) : EncodesLegally.Statement (.cgetU32 e) := by
  cases e <;> exact ⟨rfl, rfl⟩

theorem EncodesLegally.cgetU40 (e : ByteOrder) : EncodesLegally.Statement (.cgetU40 e) := by
  cases e <;> exact ⟨rfl, rfl⟩

theorem EncodesLegally.cgetU48 (e : ByteOrder) : EncodesLegally.Statement (.cgetU48 e) := by
  cases e <;> exact ⟨rfl, rfl⟩

theorem EncodesLegally.cgetU56 (e : ByteOrder) : EncodesLegally.Statement (.cgetU56 e) := by
  cases e <;> exact ⟨rfl, rfl⟩

theorem EncodesLegally.cgetU64 (e : ByteOrder) : EncodesLegally.Statement (.cgetU64 e) := by
  cases e <;> exact ⟨rfl, rfl⟩

theorem EncodesLegally.cgetI8 (e : ByteOrder) : EncodesLegally.Statement (.cgetI8 e) := by
  cases e <;> exact ⟨rfl, rfl⟩

theorem EncodesLegally.cgetI16 (e : ByteOrder) : EncodesLegally.Statement (.cgetI16 e) := by
  cases e <;> exact ⟨rfl, rfl⟩

theorem EncodesLegally.cgetI32 (e : ByteOrder) : EncodesLegally.Statement (.cgetI32 e) := by
  cases e <;> exact ⟨rfl, rfl⟩

theorem EncodesLegally.cgetI64 (e : ByteOrder) : EncodesLegally.Statement (.cgetI64 e) := by
  cases e <;> exact ⟨rfl, rfl⟩

theorem EncodesLegally.cputU8 (e : ByteOrder) : EncodesLegally.Statement (.cputU8 e) := by
  cases e <;> exact ⟨rfl, rfl⟩

theorem EncodesLegally.cputU16 (e : ByteOrder) : EncodesLegally.Statement (.cputU16 e) := by
  cases e <;> exact ⟨rfl, rfl⟩

theorem EncodesLegally.cputU24 (e : ByteOrder) : EncodesLegally.Statement (.cputU24 e) := by
  cases e <;> exact ⟨rfl, rfl⟩

theorem EncodesLegally.cputU32 (e : ByteOrder) : EncodesLegally.Statement (.cputU32 e) := by
  cases e <;> exact ⟨rfl, rfl⟩

theorem EncodesLegally.cputU40 (e : ByteOrder) : EncodesLegally.Statement (.cputU40 e) := by
  cases e <;> exact ⟨rfl, rfl⟩

theorem EncodesLegally.cputU48 (e : ByteOrder) : EncodesLegally.Statement (.cputU48 e) := by
  cases e <;> exact ⟨rfl, rfl⟩

theorem EncodesLegally.cputU56 (e : ByteOrder) : EncodesLegally.Statement (.cputU56 e) := by
  cases e <;> exact ⟨rfl, rfl⟩

theorem EncodesLegally.cputU64 (e : ByteOrder) : EncodesLegally.Statement (.cputU64 e) := by
  cases e <;> exact ⟨rfl, rfl⟩

theorem EncodesLegally.cputI8 (e : ByteOrder) : EncodesLegally.Statement (.cputI8 e) := by
  cases e <;> exact ⟨rfl, rfl⟩

theorem EncodesLegally.cputI16 (e : ByteOrder) : EncodesLegally.Statement (.cputI16 e) := by
  cases e <;> exact ⟨rfl, rfl⟩

theorem EncodesLegally.cputI32 (e : ByteOrder) : EncodesLegally.Statement (.cputI32 e) := by
  cases e <;> exact ⟨rfl, rfl⟩

theorem EncodesLegally.cputI64 (e : ByteOrder) : EncodesLegally.Statement (.cputI64 e) := by
  cases e <;> exact ⟨rfl, rfl⟩

theorem EncodesLegally.openr (e : ByteOrder) : EncodesLegally.Statement (.openr e) := by
  cases e <;> exact ⟨rfl, rfl⟩

theorem EncodesLegally.openw (e : ByteOrder) : EncodesLegally.Statement (.openw e) := by
  cases e <;> exact ⟨rfl, rfl⟩

theorem EncodesLegally.readU8 : EncodesLegally.Statement .readU8 := ⟨rfl, rfl⟩

theorem EncodesLegally.readU16 : EncodesLegally.Statement .readU16 := ⟨rfl, rfl⟩

theorem EncodesLegally.readU24 : EncodesLegally.Statement .readU24 := ⟨rfl, rfl⟩

theorem EncodesLegally.readU32 : EncodesLegally.Statement .readU32 := ⟨rfl, rfl⟩

theorem EncodesLegally.readU40 : EncodesLegally.Statement .readU40 := ⟨rfl, rfl⟩

theorem EncodesLegally.readU48 : EncodesLegally.Statement .readU48 := ⟨rfl, rfl⟩

theorem EncodesLegally.readU56 : EncodesLegally.Statement .readU56 := ⟨rfl, rfl⟩

theorem EncodesLegally.readU64 : EncodesLegally.Statement .readU64 := ⟨rfl, rfl⟩

theorem EncodesLegally.readI8 : EncodesLegally.Statement .readI8 := ⟨rfl, rfl⟩

theorem EncodesLegally.readI16 : EncodesLegally.Statement .readI16 := ⟨rfl, rfl⟩

theorem EncodesLegally.readI32 : EncodesLegally.Statement .readI32 := ⟨rfl, rfl⟩

theorem EncodesLegally.readI64 : EncodesLegally.Statement .readI64 := ⟨rfl, rfl⟩

theorem EncodesLegally.writeU8 : EncodesLegally.Statement .writeU8 := ⟨rfl, rfl⟩

theorem EncodesLegally.writeU16 : EncodesLegally.Statement .writeU16 := ⟨rfl, rfl⟩

theorem EncodesLegally.writeU24 : EncodesLegally.Statement .writeU24 := ⟨rfl, rfl⟩

theorem EncodesLegally.writeU32 : EncodesLegally.Statement .writeU32 := ⟨rfl, rfl⟩

theorem EncodesLegally.writeU40 : EncodesLegally.Statement .writeU40 := ⟨rfl, rfl⟩

theorem EncodesLegally.writeU48 : EncodesLegally.Statement .writeU48 := ⟨rfl, rfl⟩

theorem EncodesLegally.writeU56 : EncodesLegally.Statement .writeU56 := ⟨rfl, rfl⟩

theorem EncodesLegally.writeU64 : EncodesLegally.Statement .writeU64 := ⟨rfl, rfl⟩

theorem EncodesLegally.writeI8 : EncodesLegally.Statement .writeI8 := ⟨rfl, rfl⟩

theorem EncodesLegally.writeI16 : EncodesLegally.Statement .writeI16 := ⟨rfl, rfl⟩

theorem EncodesLegally.writeI32 : EncodesLegally.Statement .writeI32 := ⟨rfl, rfl⟩

theorem EncodesLegally.writeI64 : EncodesLegally.Statement .writeI64 := ⟨rfl, rfl⟩

theorem EncodesLegally.readb : EncodesLegally.Statement .readb := ⟨rfl, rfl⟩

theorem EncodesLegally.writeb : EncodesLegally.Statement .writeb := ⟨rfl, rfl⟩

theorem EncodesLegally.size : EncodesLegally.Statement .size := ⟨rfl, rfl⟩

theorem EncodesLegally.pos : EncodesLegally.Statement .pos := ⟨rfl, rfl⟩

theorem EncodesLegally.seek : EncodesLegally.Statement .seek := ⟨rfl, rfl⟩

end Sys2Proof.Laws
end

