-- ==== Sys2Proof/Laws/Step.lean ====
section
/-!
SUPPORT. What a step can do, said once: which action the fetch finds, and the checks of a command as the first
violation of R195.
-/
namespace Sys2Proof.Machine

/-- The checks each meaning makes are the violations of R190 in the order of R195. -/
theorem checkOf_eq_firstViolation (c : Command) (s : State) : checkOf c s = firstViolation c s := by
  have cap : ∀ n, capacityCheck n s =
      if s.size.toNat - s.pos.toNat < n then some .capacity else none := fun _ => rfl
  have ors : ∀ (p : Prop) [Decidable p] (c : Cause) (o : Option Cause),
      (if p then some c else none).or o = if p then some c else o := by
    intro p _ c o; split <;> rfl
  have first : ∀ (b : Bool) (c : Cause) (l : List (Bool × Cause)),
      ((((b, c) :: l).find? (·.1)).map (·.2)) = if b = true then some c else (l.find? (·.1)).map (·.2) := by
    intro b c l; cases b <;> simp
  have session : ∀ n, sessionCheck n s =
      if s.session = .none then some .noSession
      else if n = .reader ∧ s.session ≠ .reader then some .wrongSession
      else if n = .writer ∧ s.session ≠ .writer then some .wrongSession else none := by
    intro n; unfold sessionCheck; cases s.session <;> cases n <;> rfl
  cases c <;>
    simp only [checkOf, codecCheck, openCheck, typedCheck, bulkCheck, queryCheck, seekCheck, firstViolation,
      violations, cap, ors, first, decide_eq_true_eq, session, List.find?_nil, Option.map_none, nullCheck] <;>
    cases s.session <;> simp <;> rfl

/-- The inversion of the fetch: what the next action is decides what it finds. -/
theorem fetch_cases (s : State) :
    (s.fatal = true ∧
      ((s.program[s.index + 1]? = some .reset ∧ s.fetch = .reset) ∨
        (s.program[s.index + 1]? ≠ some .reset ∧ s.fetch = .halted))) ∨
    (s.fatal = false ∧
      ((s.program[s.index]? = none ∧ s.fetch = .idle) ∨
        (∃ c, s.program[s.index]? = some (.command c) ∧
          ((∃ i, decode c.word = .ok i ∧ s.fetch = .run i) ∨
            (∃ r, decode c.word = .error r ∧ s.fetch = .illegal r))) ∨
        (s.program[s.index]? = some .reset ∧ s.fetch = .reset) ∨
        (∃ c, s.program[s.index]? = some (.abort c) ∧ s.fetch = .abort c) ∨
        (∃ a b, s.program[s.index]? = some (.store a b) ∧ s.fetch = .store a b) ∨
        (s.program[s.index]? = some .endBuffer ∧ s.fetch = .endBuffer))) := by
  unfold State.fetch
  cases hf : s.fatal
  · right
    refine ⟨rfl, ?_⟩
    simp only [Bool.false_eq_true, if_false]
    cases h : s.program[s.index]? with
    | none => simp
    | some x =>
      cases x with
      | command c => cases hd : decode c.word <;> simp [hd]
      | reset => simp
      | abort c => simp
      | store a b => simp
      | endBuffer => simp
  · left
    refine ⟨rfl, ?_⟩
    simp only [if_true]
    by_cases h : s.program[s.index + 1]? = some .reset
    · simp [h]
    · right
      refine ⟨h, ?_⟩
      split <;> simp_all

/-- The operands are those of the command on the port (R79). -/
theorem operands_of_command {s : State} {c : Transfer} (h : s.program[s.index]? = some (.command c)) :
    s.operandA = c.a ∧ s.operandB = c.b := by
  simp [State.operandA, State.operandB, State.transfer, h]

/-- The accesses of an aborted command leave the record of unanswered commands. -/
@[simp] theorem abortedAfter_unanswered (t : Transfer) (k : Nat) (s : State) :
    (abortedAfter t k s).unanswered = s.unanswered := by
  unfold abortedAfter
  split
  · rfl
  · split
    · rfl
    · rename_i i _ _ _
      cases i.command <;> simp only [partialAccesses, State.readSlice_eq, State.writeSlice_unanswered]
      all_goals
        simp only [State.copyPrefix]
        split <;> exact State.copySlice_unanswered _ _ _ _

/-- A step adds its index to the record of unanswered commands exactly when a reset ends a command: out of the halt, or
during it. -/
theorem step_unanswered {s t : State} (h : step s = .next t) :
    (t.unanswered = s.unanswered ∧ s.fatal = false ∧ ∀ c, s.program[s.index]? ≠ some (.abort c)) ∨
      (t.unanswered = s.index :: s.unanswered ∧
        (s.fatal = true ∨ ∃ c, s.program[s.index]? = some (.abort c))) := by
  rcases fetch_cases s with ⟨hf, ⟨-, h'⟩ | ⟨-, h'⟩⟩ | ⟨hf, ⟨hp, h'⟩ | ⟨c, hp, ⟨i, -, h'⟩ | ⟨r, -, h'⟩⟩ | ⟨hp, h'⟩ |
      ⟨c, hp, h'⟩ | ⟨a, b, hp, h'⟩ | ⟨hp, h'⟩⟩ <;> simp only [step, h'] at h
  · cases h; exact .inr ⟨by simp [hf], .inl hf⟩
  · cases h
  · cases h; exact .inl ⟨rfl, hf, by simp [hp]⟩
  · refine .inl ⟨?_, hf, by simp [hp]⟩
    obtain ⟨-, ⟨v, -, rfl⟩ | ⟨-, rfl⟩⟩ := exec_cases h <;> simp
  · cases h; exact .inl ⟨rfl, hf, by simp [hp]⟩
  · cases h; exact .inl ⟨by simp [hf], hf, by simp [hp]⟩
  · cases h; exact .inr ⟨rfl, .inr ⟨c, hp⟩⟩
  · cases h; exact .inl ⟨rfl, hf, by simp [hp]⟩
  · unfold State.endBufferLife at h
    split at h
    · cases h; exact .inl ⟨rfl, hf, by simp [hp]⟩
    · cases h

end Sys2Proof.Machine
end

