-- ==== Sys2Proof/Tests/Slice0.lean ====
section
/-!
SUPPORT. The model's own tests. Expected values are the spec's: the encodings of spec/opcode_table.json and
30_encoding.md, the vectors of 95_test_vectors.md, and, for each statement of the obligations that has hypotheses, a
state and operands that meet them together.
-/
namespace Sys2Proof.Tests

open Sys2Proof Sys2Proof.Machine

/-! ### Helpers -/

/-- A command the host transfers. -/
def cmd (w : CommandWord) (a b : Word) : HostAction := .command { word := w, a := a, b := b }

/-- Bytes written from an address on. -/
def bytes (a : Nat) (bs : List Byte) : Memory := bs.zipIdx.map fun p => (a + p.2, p.1)

/-- The reset state with some memory and a list of actions. -/
def start (m : Memory) (p : List HostAction) : State := { State.reset with mem := m, program := p }

/-- A state inside a session. -/
def opened (k : Session) (o : ByteOrder) (base size pos : Word) (m : Memory) (p : List HostAction) : State :=
  { start m p with session := k, order := o, base := base, size := size, pos := pos }

/-- A state in the fatal halt. -/
def halted (c : Cause) (s : State) : State := { s with fatal := true, cause := c }

/-- The outcome is a next state with a property. -/
def after (r : Result) (f : State → Bool) : Bool :=
  match r with
  | .next t => f t
  | .fault _ => false
  | .refused _ => false

/-- The step completes with a response. -/
def responds (s : State) (v : Word) : Bool := after (step s) fun t => t.rsp == some v && !t.fatal

/-- The step is the entry into the fatal halt: FATAL and CAUSE set, everything else as it was (R193). -/
def halts (s : State) (c : Cause) : Bool := after (step s) fun t => t == halted c s

/-- The bytes from an address on in a memory. -/
def stored (t : State) (a : Word) (n : Nat) : List Byte := (List.range n).map fun i => t.mem.read (addr a i)

/-- The step completes and leaves these bytes from an address on. -/
def stores (s : State) (a : Word) (bs : List Byte) : Bool :=
  after (step s) fun t => stored t a bs.length == bs && t.rsp == some 0 && !t.fatal

/-- The bytes 01 to 08 at 0x1000 (95_test_vectors.md 2.1). -/
def ascending : Memory := bytes 0x1000 [1, 2, 3, 4, 5, 6, 7, 8]

/-- Nine bytes EE at 0x1000 (95_test_vectors.md 2.3). -/
def filled : Memory := bytes 0x1000 (List.replicate 9 0xEE)

/-! ### WellFormed: one ill-formed word per check (R78) -/

theorem test_wf_legal : (⟨0, 1, 0xF, 0x1⟩ : Fields).legal = true := by decide

theorem test_wf_refuses_reserved_bits :
    (⟨1, 0, 0, 0x1⟩ : Fields).rsvOk = false ∧ (⟨1, 0, 0, 0x1⟩ : Fields).legal = false := by decide

theorem test_wf_refuses_reserved_op : ∀ op ∈ ([0x0, 0xC, 0xF] : List (BitVec 4)),
    (⟨0, 0, 0, op⟩ : Fields).opOk = false ∧ (⟨0, 0, 0, op⟩ : Fields).legal = false := by decide

theorem test_wf_refuses_reserved_tag : ∀ t ∈ ([0xA, 0xC, 0xD, 0xE] : List (BitVec 4)),
    (⟨0, 0, t, 0x6⟩ : Fields).tagOk = false ∧ (⟨0, 0, t, 0x6⟩ : Fields).legal = false := by decide

theorem test_wf_refuses_tag_not_taken :
    (⟨0, 0, 1, 0x3⟩ : Fields).tagOk = false ∧ (⟨0, 0, 1, 0x3⟩ : Fields).legal = false := by decide

theorem test_wf_refuses_order_not_taken :
    (⟨0, 1, 0, 0x5⟩ : Fields).orderOk = false ∧ (⟨0, 1, 0, 0x5⟩ : Fields).legal = false := by decide

/-! ### Decoding: the encoding of every row of spec/opcode_table.json, bit by bit -/

theorem test_decode_cget : ∀ p ∈ ([
      (0b0000_0000_0000_0000_0000_0000_0000_0001, .cgetU8 .le),
      (0b0000_0000_0000_0000_0000_0001_0000_0001, .cgetU8 .be),
      (0b0000_0000_0000_0000_0000_0000_0001_0001, .cgetU16 .le),
      (0b0000_0000_0000_0000_0000_0001_0001_0001, .cgetU16 .be),
      (0b0000_0000_0000_0000_0000_0000_0010_0001, .cgetU24 .le),
      (0b0000_0000_0000_0000_0000_0001_0010_0001, .cgetU24 .be),
      (0b0000_0000_0000_0000_0000_0000_0011_0001, .cgetU32 .le),
      (0b0000_0000_0000_0000_0000_0001_0011_0001, .cgetU32 .be),
      (0b0000_0000_0000_0000_0000_0000_0100_0001, .cgetU40 .le),
      (0b0000_0000_0000_0000_0000_0001_0100_0001, .cgetU40 .be),
      (0b0000_0000_0000_0000_0000_0000_0101_0001, .cgetU48 .le),
      (0b0000_0000_0000_0000_0000_0001_0101_0001, .cgetU48 .be),
      (0b0000_0000_0000_0000_0000_0000_0110_0001, .cgetU56 .le),
      (0b0000_0000_0000_0000_0000_0001_0110_0001, .cgetU56 .be),
      (0b0000_0000_0000_0000_0000_0000_0111_0001, .cgetU64 .le),
      (0b0000_0000_0000_0000_0000_0001_0111_0001, .cgetU64 .be),
      (0b0000_0000_0000_0000_0000_0000_1000_0001, .cgetI8 .le),
      (0b0000_0000_0000_0000_0000_0001_1000_0001, .cgetI8 .be),
      (0b0000_0000_0000_0000_0000_0000_1001_0001, .cgetI16 .le),
      (0b0000_0000_0000_0000_0000_0001_1001_0001, .cgetI16 .be),
      (0b0000_0000_0000_0000_0000_0000_1011_0001, .cgetI32 .le),
      (0b0000_0000_0000_0000_0000_0001_1011_0001, .cgetI32 .be),
      (0b0000_0000_0000_0000_0000_0000_1111_0001, .cgetI64 .le),
      (0b0000_0000_0000_0000_0000_0001_1111_0001, .cgetI64 .be)] : List (CommandWord × Instr)),
    decode p.1 = .ok p.2 := by decide

theorem test_decode_cput : ∀ p ∈ ([
      (0b0000_0000_0000_0000_0000_0000_0000_0010, .cputU8 .le),
      (0b0000_0000_0000_0000_0000_0001_0000_0010, .cputU8 .be),
      (0b0000_0000_0000_0000_0000_0000_0001_0010, .cputU16 .le),
      (0b0000_0000_0000_0000_0000_0001_0001_0010, .cputU16 .be),
      (0b0000_0000_0000_0000_0000_0000_0010_0010, .cputU24 .le),
      (0b0000_0000_0000_0000_0000_0001_0010_0010, .cputU24 .be),
      (0b0000_0000_0000_0000_0000_0000_0011_0010, .cputU32 .le),
      (0b0000_0000_0000_0000_0000_0001_0011_0010, .cputU32 .be),
      (0b0000_0000_0000_0000_0000_0000_0100_0010, .cputU40 .le),
      (0b0000_0000_0000_0000_0000_0001_0100_0010, .cputU40 .be),
      (0b0000_0000_0000_0000_0000_0000_0101_0010, .cputU48 .le),
      (0b0000_0000_0000_0000_0000_0001_0101_0010, .cputU48 .be),
      (0b0000_0000_0000_0000_0000_0000_0110_0010, .cputU56 .le),
      (0b0000_0000_0000_0000_0000_0001_0110_0010, .cputU56 .be),
      (0b0000_0000_0000_0000_0000_0000_0111_0010, .cputU64 .le),
      (0b0000_0000_0000_0000_0000_0001_0111_0010, .cputU64 .be),
      (0b0000_0000_0000_0000_0000_0000_1000_0010, .cputI8 .le),
      (0b0000_0000_0000_0000_0000_0001_1000_0010, .cputI8 .be),
      (0b0000_0000_0000_0000_0000_0000_1001_0010, .cputI16 .le),
      (0b0000_0000_0000_0000_0000_0001_1001_0010, .cputI16 .be),
      (0b0000_0000_0000_0000_0000_0000_1011_0010, .cputI32 .le),
      (0b0000_0000_0000_0000_0000_0001_1011_0010, .cputI32 .be),
      (0b0000_0000_0000_0000_0000_0000_1111_0010, .cputI64 .le),
      (0b0000_0000_0000_0000_0000_0001_1111_0010, .cputI64 .be)] : List (CommandWord × Instr)),
    decode p.1 = .ok p.2 := by decide

theorem test_decode_controls : ∀ p ∈ ([
      (0b0000_0000_0000_0000_0000_0000_0000_0011, .openr .le),
      (0b0000_0000_0000_0000_0000_0001_0000_0011, .openr .be),
      (0b0000_0000_0000_0000_0000_0000_0000_0100, .openw .le),
      (0b0000_0000_0000_0000_0000_0001_0000_0100, .openw .be),
      (0b0000_0000_0000_0000_0000_0000_0000_0111, .readb),
      (0b0000_0000_0000_0000_0000_0000_0000_1000, .writeb),
      (0b0000_0000_0000_0000_0000_0000_0000_1001, .size),
      (0b0000_0000_0000_0000_0000_0000_0000_1010, .pos),
      (0b0000_0000_0000_0000_0000_0000_0000_1011, .seek)] : List (CommandWord × Instr)),
    decode p.1 = .ok p.2 := by decide

theorem test_decode_read : ∀ p ∈ ([
      (0b0000_0000_0000_0000_0000_0000_0000_0101, .readU8),
      (0b0000_0000_0000_0000_0000_0000_0001_0101, .readU16),
      (0b0000_0000_0000_0000_0000_0000_0010_0101, .readU24),
      (0b0000_0000_0000_0000_0000_0000_0011_0101, .readU32),
      (0b0000_0000_0000_0000_0000_0000_0100_0101, .readU40),
      (0b0000_0000_0000_0000_0000_0000_0101_0101, .readU48),
      (0b0000_0000_0000_0000_0000_0000_0110_0101, .readU56),
      (0b0000_0000_0000_0000_0000_0000_0111_0101, .readU64),
      (0b0000_0000_0000_0000_0000_0000_1000_0101, .readI8),
      (0b0000_0000_0000_0000_0000_0000_1001_0101, .readI16),
      (0b0000_0000_0000_0000_0000_0000_1011_0101, .readI32),
      (0b0000_0000_0000_0000_0000_0000_1111_0101, .readI64)] : List (CommandWord × Instr)),
    decode p.1 = .ok p.2 := by decide

theorem test_decode_write : ∀ p ∈ ([
      (0b0000_0000_0000_0000_0000_0000_0000_0110, .writeU8),
      (0b0000_0000_0000_0000_0000_0000_0001_0110, .writeU16),
      (0b0000_0000_0000_0000_0000_0000_0010_0110, .writeU24),
      (0b0000_0000_0000_0000_0000_0000_0011_0110, .writeU32),
      (0b0000_0000_0000_0000_0000_0000_0100_0110, .writeU40),
      (0b0000_0000_0000_0000_0000_0000_0101_0110, .writeU48),
      (0b0000_0000_0000_0000_0000_0000_0110_0110, .writeU56),
      (0b0000_0000_0000_0000_0000_0000_0111_0110, .writeU64),
      (0b0000_0000_0000_0000_0000_0000_1000_0110, .writeI8),
      (0b0000_0000_0000_0000_0000_0000_1001_0110, .writeI16),
      (0b0000_0000_0000_0000_0000_0000_1011_0110, .writeI32),
      (0b0000_0000_0000_0000_0000_0000_1111_0110, .writeI64)] : List (CommandWord × Instr)),
    decode p.1 = .ok p.2 := by decide
/-- 95_test_vectors.md 3.4: the illegal words, with the reason of each. -/
theorem test_decode_illegal : ∀ p ∈ ([
      (0x00000000, .reservedOp), (0x0000000C, .reservedOp), (0x0000000F, .reservedOp), (0x000000A1, .reservedTag),
      (0x000000C5, .reservedTag), (0x000000D5, .reservedTag), (0x000000E5, .reservedTag),
      (0x00000105, .orderNotTaken), (0x00000013, .tagNotTaken), (0x00000019, .tagNotTaken),
      (0x00000107, .orderNotTaken), (0x00000231, .reservedBits), (0x80000001, .reservedBits)] :
        List (CommandWord × Illegal)),
    decode p.1 = .error p.2 := by decide

/-- The host's entry to the decoder, on a row's 32 bits (R92). -/
theorem test_decodeTableWord :
    decodeTableWord 32 0x131 = some (.cgetU32 .be) ∧ decodeTableWord 32 0xA1 = none := by decide

/-! ### Codec vectors (95_test_vectors.md part 2) -/

/- 2.1, both byte orders. -/

theorem test_cget_unsigned_le : ([
      (0x01, 0x01), (0x11, 0x0201), (0x21, 0x030201), (0x31, 0x04030201),
      (0x41, 0x0504030201), (0x51, 0x060504030201), (0x61, 0x07060504030201), (0x71, 0x0807060504030201)] :
        List (CommandWord × Word)).all (fun p =>
      responds (start ascending [cmd p.1 0x1000 0]) p.2) = true := by decide

theorem test_cget_signed_le : ([
      (0x81, 0x01), (0x91, 0x0201), (0xB1, 0x04030201), (0xF1, 0x0807060504030201)] :
        List (CommandWord × Word)).all (fun p =>
      responds (start ascending [cmd p.1 0x1000 0]) p.2) = true := by decide

theorem test_cget_unsigned_be : ([
      (0x101, 0x01), (0x111, 0x0102), (0x121, 0x010203), (0x131, 0x01020304),
      (0x141, 0x0102030405), (0x151, 0x010203040506), (0x161, 0x01020304050607), (0x171, 0x0102030405060708)] :
        List (CommandWord × Word)).all (fun p =>
      responds (start ascending [cmd p.1 0x1000 0]) p.2) = true := by decide

theorem test_cget_signed_be : ([
      (0x181, 0x01), (0x191, 0x0102), (0x1B1, 0x01020304), (0x1F1, 0x0102030405060708)] :
        List (CommandWord × Word)).all (fun p =>
      responds (start ascending [cmd p.1 0x1000 0]) p.2) = true := by decide

/-- 2.2 and W4: sign and zero extension. -/
theorem test_cget_extension : ∀ p ∈ ([
      (0x081, [0x80], 0xFFFFFFFFFFFFFF80), (0x001, [0x80], 0x80), (0x181, [0x7F], 0x7F),
      (0x091, [0x80, 0x00], 0x80), (0x191, [0x80, 0x00], 0xFFFFFFFFFFFF8000),
      (0x0B1, [0, 0, 0, 0x80], 0xFFFFFFFF80000000), (0x031, [0, 0, 0, 0x80], 0x80000000),
      (0x1F1, [0x80, 0, 0, 0, 0, 0, 0, 0], 0x8000000000000000), (0x021, [0xFF, 0xFF, 0xFF], 0xFFFFFF),
      (0x121, [0x80, 0, 0], 0x800000),
      (0x161, [0xFF, 0xFF, 0xFF, 0xFF, 0xFF, 0xFF, 0xFF], 0x00FFFFFFFFFFFFFF),
      (0x0B1, [0xFF, 0xFF, 0xFF, 0xFF], 0xFFFFFFFFFFFFFFFF)] : List (CommandWord × List Byte × Word)),
    responds (start (bytes 0x1000 p.2.1) [cmd p.1 0x1000 0]) p.2.2 = true := by decide

/-- 2.3 and W2: the stored bytes, and the first byte after them left alone. -/
theorem test_cput_bytes : ∀ p ∈ ([
      (0x002, 0x1FF, [0xFF, 0xEE]), (0x012, 0x1234, [0x34, 0x12, 0xEE]), (0x112, 0x1234, [0x12, 0x34, 0xEE]),
      (0x022, 0x11AABBCC, [0xCC, 0xBB, 0xAA, 0xEE]), (0x132, 0x01020304, [1, 2, 3, 4, 0xEE]),
      (0x042, 0x1122334455, [0x55, 0x44, 0x33, 0x22, 0x11, 0xEE]),
      (0x142, 0x1122334455, [0x11, 0x22, 0x33, 0x44, 0x55, 0xEE]),
      (0x052, 0xA1A2A3A4A5A6, [0xA6, 0xA5, 0xA4, 0xA3, 0xA2, 0xA1, 0xEE]),
      (0x162, 0x00AABBCCDDEEFF11, [0xAA, 0xBB, 0xCC, 0xDD, 0xEE, 0xFF, 0x11, 0xEE]),
      (0x072, 0x0102030405060708, [8, 7, 6, 5, 4, 3, 2, 1, 0xEE]),
      (0x192, 0xFFFFFFFFFFFFFFFE, [0xFF, 0xFE, 0xEE]),
      (0x0B2, 0xFFFFFFFFFFFFFFFF, [0xFF, 0xFF, 0xFF, 0xFF, 0xEE]),
      (0x1F2, 0x8000000000000000, [0x80, 0, 0, 0, 0, 0, 0, 0, 0xEE]), (0x082, 0x80, [0x80, 0xEE])] :
        List (CommandWord × Word × List Byte)),
    stores (start filled [cmd p.1 0x1000 p.2.1]) 0x1000 p.2.2 = true := by decide

/-- 2.5: null pointers halt, and a slice wraps past the top of the address space. -/
theorem test_codec_corners :
    halts (start [] [cmd 0x31 0 0]) .nullPointer = true ∧
      halts (start [(0, 0x99)] [cmd 0x102 0 0x55]) .nullPointer = true ∧
      responds (start [(0, 0xCD), (0xFFFFFFFFFFFFFFFF, 0xAB)] [cmd 0x11 0xFFFFFFFFFFFFFFFF 0]) 0xCDAB = true ∧
      stores (start [] [cmd 0x132 0xFFFFFFFFFFFFFFFE 0x01020304]) 0xFFFFFFFFFFFFFFFE [1, 2, 3, 4] = true := by
  decide

/-! ### Cursor vectors (95_test_vectors.md part 3) -/

/-- V-S1 to V-S3. -/
theorem test_open :
    after (step (start [] [cmd 0x003 0x1000 8])) (fun t =>
        t == { opened .reader .le 0x1000 8 0 [] t.program with rsp := some 0, index := 1 }) = true ∧
      after (step (opened .reader .le 0x1000 8 6 [] [cmd 0x104 0x2000 4])) (fun t =>
        t == { opened .writer .be 0x2000 4 0 [] t.program with rsp := some 0, index := 1 }) = true := by decide

/-- V-S4 to V-S6. -/
theorem test_read :
    after (step (opened .reader .be 0x1000 8 5 ascending [cmd 0x025 0 0]))
        (fun t => t.rsp == some 0x060708 && t.pos == 8) = true ∧
      responds (opened .reader .be 0x1000 8 0 (bytes 0x1000 [0xFF, 0xFE]) [cmd 0x095 0 0]) 0xFFFFFFFFFFFFFFFE =
        true := by decide

/-- V-S7 and V-S8. -/
theorem test_write :
    stores (opened .writer .be 0x2000 4 0 (bytes 0x2000 [0xEE, 0xEE, 0xEE, 0xEE]) [cmd 0x026 0 0xAABBCC]) 0x2000
        [0xAA, 0xBB, 0xCC, 0xEE] = true ∧
      after (step (opened .writer .be 0x2000 4 3 [] [cmd 0x006 0 0x1234]))
        (fun t => stored t 0x2003 1 == [0x34] && t.pos == 4) = true := by decide

/-- V-S9, V-S12: an empty copy makes no access; an overlapping copy is interleaved. -/
theorem test_readb :
    after (step (opened .reader .le 0x1000 8 8 [] [cmd 0x007 0x3000 0]))
        (fun t => t.rsp == some 0 && t.pos == 8 && t.accesses == []) = true ∧
      stores (opened .reader .le 0x1000 4 0 (bytes 0x1000 [0x10, 0x11, 0x12, 0x13]) [cmd 0x007 0x1001 3]) 0x1000
        [0x10, 0x10, 0x10, 0x10] = true := by decide

/-- V-S11, and the order of its accesses (R59). -/
theorem test_writeb :
    after (step (opened .writer .le 0x2000 8 1 (bytes 0x3000 [0xA0, 0xA1]) [cmd 0x008 0x3000 2])) (fun t =>
        stored t 0x2001 2 == [0xA0, 0xA1] && t.pos == 3 &&
          t.accesses == [.read 0x3000, .write 0x2001 0xA0, .read 0x3001, .write 0x2002 0xA1]) = true := by decide

/-- V-S13 to V-S16. -/
theorem test_queries :
    responds (opened .writer .le 0x1000 8 5 [] [cmd 0x009 0 0]) 8 = true ∧
      responds (opened .reader .le 0x1000 8 5 [] [cmd 0x00A 0 0]) 5 = true ∧
      after (step (opened .reader .le 0x1000 8 0 [] [cmd 0x00B 8 0])) (fun t => t.pos == 8) = true := by decide

/-- 3.2: a buffer across the top of the address space. -/
theorem test_wrapped_buffer :
    responds (opened .reader .le 0xFFFFFFFFFFFFFFFC 8 0
        (bytes 0 [0xB1, 0xB2, 0xB3, 0xB4] ++ bytes 0xFFFFFFFFFFFFFFFC [0xA1, 0xA2, 0xA3, 0xA4]) [cmd 0x075 0 0])
        0xB4B3B2B1A4A3A2A1 = true ∧
      halts (opened .reader .le 0xFFFFFFFFFFFFFFFC 8 4 [] [cmd 0x005 0 0]) .nullPointer = true := by decide

/-- 3.3 and 3.4: the fault vectors, each with the state otherwise as before. -/
theorem test_faults : ∀ p ∈ ([
      (start [] [cmd 0x003 0 8], .nullPointer), (start [] [cmd 0x004 0x1000 0], .zeroSize),
      (start [] [cmd 0x003 0 0], .nullPointer), (opened .reader .le 0x1000 8 3 [] [cmd 0x003 0 4], .nullPointer),
      (start [] [cmd 0x005 0 0], .noSession), (start [] [cmd 0x009 0 0], .noSession),
      (start [] [cmd 0x007 0x3000 0], .noSession), (opened .writer .le 0x1000 8 0 [] [cmd 0x005 0 0], .wrongSession),
      (opened .reader .le 0x1000 8 8 [] [cmd 0x008 0x3000 100], .wrongSession),
      (opened .reader .le 0x1000 8 8 [] [cmd 0x005 0 0], .capacity),
      (opened .writer .le 0x1000 4 2 [] [cmd 0x026 0 0], .capacity),
      (opened .reader .le 0x1000 8 5 [] [cmd 0x007 0x3000 4], .capacity),
      (opened .reader .le 0x1000 8 1 [] [cmd 0x007 0x3000 0xFFFFFFFFFFFFFFFF], .capacity),
      (opened .reader .le 0x1000 8 0 [] [cmd 0x00B 9 0], .seekRange), (start [] [cmd 0x000 0 0], .illegalCommand),
      (opened .reader .le 0x1000 8 0 [] [cmd 0x0C5 0 0], .illegalCommand)] : List (State × Cause)),
    halts p.1 p.2 = true := by decide

/-- V-R1 and V-R2: the halted block has no step but reset. -/
theorem test_halt_and_reset :
    after (step (halted .capacity (opened .reader .le 0x1000 8 8 ascending [cmd 0x005 0 0, cmd 0x00A 0 0])))
        (fun _ => true) = false ∧
      after (step (halted .capacity (opened .reader .le 0x1000 8 8 ascending [cmd 0x005 0 0, .reset]))) (fun t =>
        t == { start ascending t.program with index := 2, unanswered := [0] }) = true := by decide

/-- R237: a run in which a command was aborted, or failed and was reset, is no successful one. -/
theorem test_unanswered_run_is_not_successful :
    after (core.run 1 (start [] [.abort ⟨0x003, 0x1000, 8⟩])) (fun t =>
        !decide t.Succeeded && decide t.CutShort) = true ∧
      after (core.run 2 (start [] [cmd 0x005 0 0, .reset])) (fun t => !decide t.Succeeded && decide t.CutShort) =
        true := by decide

/-- A word placed where the step fetches is what the very next step runs, from the reset state. -/
theorem test_withFetchWord :
    (State.reset.withFetchWord 32 0x104).fetch = .run (.openw .be) ∧
      halts (State.reset.withFetchWord 32 0x005) .noSession = true ∧
      responds ((opened .reader .be 0x1000 8 0 ascending [cmd 0x005 0 0]).withFetchWord 32 0x035) 0x01020304 =
        true := by decide

/-! ### Witnesses: for each statement with hypotheses, a state and operands that meet them together -/

/-- A reader over 01 to 08, big-endian. -/
def reader (pos : Word) (p : List HostAction) : State := opened .reader .be 0x1000 8 pos ascending p

/-- A writer over eight bytes at 0x2000, with 01 to 08 at 0x1000. -/
def writer (pos : Word) (p : List HostAction) : State := opened .writer .le 0x2000 8 pos ascending p

theorem witness_DecodeAndEncodeAgree : decode 0x1F1 = .ok (.cgetI64 .be) := by decide

theorem witness_LegalWordsAreThoseDecoded :
    (0x1F1#32).extractLsb' 0 4 = 0x1 ∧ (0x1F1#32).extractLsb' 4 4 = 0xF ∧ (0x00B#32).extractLsb' 0 4 = 0xB := by
  decide

theorem witness_IllegalWordHaltsTheBlock : ∀ p ∈ ([
      (0x0, .reservedOp), (0xC, .reservedOp), (0xA1, .reservedTag), (0x19, .tagNotTaken), (0x105, .orderNotTaken),
      (0x201, .reservedBits)] : List (CommandWord × Illegal)),
    (writer 3 [cmd p.1 0 0]).fatal = false ∧ (writer 3 [cmd p.1 0 0]).program[0]? = some (cmd p.1 0 0) ∧
      decode p.1 = .error p.2 := by decide

/-- One line of each form, with operands at the ends of their ranges. -/
theorem witness_EveryLineAssemblesToOneCommand : ∀ p ∈ ([
      (⟨.cget, some .be, some .u32, some (2 ^ 64 - 1), none⟩, ⟨0x131, 0xFFFFFFFFFFFFFFFF, 0⟩),
      (⟨.cput, some .le, some .i64, some 0x1000, some (-2 ^ 63)⟩, ⟨0x0F2, 0x1000, 0x8000000000000000⟩),
      (⟨.openr, some .le, none, some 0x1000, some 8⟩, ⟨0x003, 0x1000, 8⟩),
      (⟨.openw, some .be, none, some 0x1000, some 8⟩, ⟨0x104, 0x1000, 8⟩),
      (⟨.read, none, some .i8, none, none⟩, ⟨0x085, 0, 0⟩),
      (⟨.write, none, some .u56, none, some (-1)⟩, ⟨0x066, 0, 0xFFFFFFFFFFFFFFFF⟩),
      (⟨.readb, none, none, some 0, some 0⟩, ⟨0x007, 0, 0⟩),
      (⟨.writeb, none, none, some 0, some 0⟩, ⟨0x008, 0, 0⟩), (⟨.size, none, none, none, none⟩, ⟨0x009, 0, 0⟩),
      (⟨.pos, none, none, none, none⟩, ⟨0x00A, 0, 0⟩), (⟨.seek, none, none, some 8, none⟩, ⟨0x00B, 8, 0⟩)] :
        List (AsmLine × Transfer)),
    assemble p.1 = some p.2 ∧ p.1.hasItsParts = true := by decide

/-- Lines that lack a part, have one too many, or have an operand just out of range. -/
theorem test_lines_refused : ∀ l ∈ ([
      ⟨.cget, none, some .u32, some 0, none⟩, ⟨.read, some .le, some .u8, none, none⟩,
      ⟨.size, none, none, some 0, none⟩, ⟨.seek, none, none, some (2 ^ 64), none⟩, ⟨.seek, none, none, some (-1), none⟩,
      ⟨.write, none, some .u8, none, some (-2 ^ 63 - 1)⟩, ⟨.cput, some .be, some .i64, some (-1), some 0⟩] :
        List AsmLine),
    assemble l = none ∧ l.hasItsParts = false := by decide

theorem witness_StepRunsTheDecodedCommand :
    (reader 0 [cmd 0x035 0 0]).fatal = false ∧ (reader 0 [cmd 0x035 0 0]).program[0]? = some (cmd 0x035 0 0) ∧
      decode 0x035 = .ok .readU32 := by decide

/-- Nothing offered, and an action that is no command and no reset. -/
theorem witness_IdleBlockKeepsItsState :
    (reader 3 []).fatal = false ∧ (reader 3 []).program[0]? = none ∧
      after (step (reader 3 [.store 0x3000 1])) (fun t => t.pos == 3 && t.index == 1) = true := by decide

/-- Halted, with and without a reset to come. -/
theorem witness_HaltedBlockHasNoStepButReset :
    (halted .capacity (reader 8 [cmd 0x005 0 0, .reset])).fatal = true ∧
      (halted .capacity (reader 8 [cmd 0x005 0 0, .reset])).program[1]? = some .reset ∧
      (halted .capacity (reader 8 [cmd 0x005 0 0])).program[1]? ≠ some .reset := by decide

/-- Reset while idle, in the halt (above), and during a command. -/
theorem witness_ResetClearsEveryRegister :
    (reader 3 [.reset]).fatal = false ∧ (reader 3 [.reset]).program[0]? = some .reset ∧
      (reader 3 [.abort ⟨0x035, 0, 0⟩]).program[0]? = some (.abort ⟨0x035, 0, 0⟩) := by decide

theorem witness_ResetLeavesTheMemory :
    after (step (reader 3 [.reset])) (fun t => t.mem == ascending) = true ∧ Memory.find ascending 0xFFF = none := by
  decide

/-- An aborted command of each clause: CPUT, WRITE ending at SIZE, READB and WRITEB of all that is left, one that
writes no memory, one whose check fails, and an illegal word. -/
theorem witness_AbortedCommandLeavesAPrefixOfItsWrites :
    (decode 0x022 = .ok (.cputU24 .le) ∧ (Instr.cputU24 .le).command = .cput .u24 .le) ∧
      (decode 0x076 = .ok .writeU64 ∧ Tag.u64.byteLen ≤ (writer 0 []).size.toNat - (writer 0 []).pos.toNat ∧
        (writer 0 []).base + (writer 0 []).pos ≠ 0 ∧ (writer 0 []).session = .writer) ∧
      (decode 0x007 = .ok .readb ∧ (8#64).toNat ≤ (reader 0 []).size.toNat - (reader 0 []).pos.toNat) ∧
      (decode 0x008 = .ok .writeb ∧ (8#64).toNat ≤ (writer 0 []).size.toNat - (writer 0 []).pos.toNat) ∧
      decode 0x001 = .ok (.cgetU8 .le) ∧
      firstViolation Instr.readU8.command (writer 0 [.abort ⟨0x005, 0, 0⟩]) = some .wrongSession ∧
      decode 0x000 = .error .reservedOp ∧
      (writer 0 [.abort ⟨0x076, 0, 7⟩]).program[0]? = some (.abort ⟨0x076, 0, 7⟩) := by decide

/-- A stream command and a codec command in the reset registers. -/
theorem witness_AfterResetStreamCommandsHaveNoSession :
    (start [] [cmd 0x009 0 0]).RegistersReset ∧ halts (start [] [cmd 0x009 0 0]) .noSession = true ∧
      (start ascending [cmd 0x001 0x1000 0]).RegistersReset ∧ (start ascending [cmd 0x001 0x1000 0]).operandA ≠ 0 := by
  decide

/-- The invariant in a session, out of one, and in the halt, with a step from it. -/
theorem witness_StepKeepsTheInvariant :
    (reader 8 [cmd 0x007 0x3000 0]).Inv ∧ (start [] [cmd 0x003 0x1000 8]).Inv ∧
      (halted .capacity (reader 8 [cmd 0x005 0 0, .reset])).Inv ∧
      after (step (reader 8 [cmd 0x007 0x3000 0])) (fun t => t.rsp == some 0) = true := by
  refine ⟨?_, ?_, ?_, ?_⟩ <;> decide

theorem witness_CursorStaysInItsView :
    (start [] [cmd 0x003 0x1000 8]).Inv ∧
      after (core.run 1 (start [] [cmd 0x003 0x1000 8])) (fun t => t.session == .reader) = true := by decide

/-- The cursor moves by each of its ways: READ, WRITE, READB, WRITEB, SEEK, OPENR, OPENW and reset. -/
theorem witness_PositionChangesOnlyAsStated : ∀ p ∈ ([
      (reader 0 [cmd 0x075 0 0], 8), (writer 7 [cmd 0x006 0 0xFF], 8), (reader 7 [cmd 0x007 0x3000 1], 8),
      (writer 0 [cmd 0x008 0x1000 8], 8), (reader 0 [cmd 0x00B 8 0], 8), (reader 8 [cmd 0x003 0x1000 8], 0),
      (reader 8 [cmd 0x004 0x1000 8], 0), (reader 8 [.reset], 0)] : List (State × Word)),
    p.1.Inv ∧ after (step p.1) (fun t => t.pos == p.2 && t.pos != p.1.pos) = true := by decide

theorem witness_ViewChangesOnlyByOpenOrReset :
    after (step (reader 3 [cmd 0x004 0x2000 16])) (fun t => t.session == .writer && t.size == 16) = true ∧
      after (step (reader 3 [.reset])) (fun t => t.session == .none) = true := by decide

theorem witness_FatalEntryIsPrecise :
    after (step (reader 5 [cmd 0x035 0 0])) (fun t => t.fatal && t.cause == .capacity) = true := by decide

/-- A failing check of each cause; an illegal word has its states in `witness_IllegalWordHaltsTheBlock`. -/
theorem witness_FailedCheckWritesOnlyFatalAndCause : ∀ p ∈ ([
      (start [] [], .size, .noSession), (reader 0 [], .writeU8, .wrongSession), (start [] [], .cgetU8 .le, .nullPointer),
      (start [] [cmd 0x003 0x1000 0], .openr .le, .zeroSize), (reader 8 [], .readU8, .capacity),
      (reader 0 [cmd 0x00B 9 0], .seek, .seekRange)] : List (State × Instr × Cause)),
    p.1.fatal = false ∧ firstViolation p.2.1.command p.1 = some p.2.2 := by decide

/-- A stream command of each need whose session check fails, and a command without one that halts. -/
theorem witness_SessionCheckOfStreamCommands : ∀ p ∈ ([
      (start [] [], .readU8, .reader, .noSession), (writer 0 [], .readb, .reader, .wrongSession),
      (reader 0 [], .writeU8, .writer, .wrongSession), (reader 0 [], .writeb, .writer, .wrongSession),
      (start [] [], .size, .either, .noSession), (start [] [], .pos, .either, .noSession),
      (start [] [], .seek, .either, .noSession)] : List (State × Instr × Need × Cause)),
    p.1.fatal = false ∧ sessionCheck p.2.2.1 p.1 = some p.2.2.2 ∧
      after (exec (.cgetU8 .le) p.1) (fun t => t.fatal) = true := by decide

/-- Two violations at once, and none, at the end of the capacity. -/
theorem witness_FirstViolationGivesTheCause :
    (reader 8 [cmd 0x008 0x3000 100]).fatal = false ∧
      firstViolation Instr.writeb.command (reader 8 [cmd 0x008 0x3000 100]) = some .wrongSession ∧
      firstViolation Instr.readU8.command (reader 7 []) = none := by decide

theorem witness_CauseAndSessionCodes :
    (halted .capacity (reader 8 [cmd 0x005 0 0])).Inv ∧ (reader 8 []).Inv := by
  decide

/-- CGET and CPUT at the lowest and at the highest address. -/
theorem witness_CgetRespondsTheDecodedSlice :
    (Instr.cgetU64 .be).command = .cget .u64 .be ∧ (writer 3 [cmd 0x171 1 0]).fatal = false ∧
      (writer 3 [cmd 0x171 1 0]).operandA ≠ 0 ∧ (writer 3 [cmd 0x171 0xFFFFFFFFFFFFFFFF 0]).operandA ≠ 0 := by decide

theorem witness_CputStoresExactlyItsBytes :
    (Instr.cputU24 .le).command = .cput .u24 .le ∧ (writer 3 [cmd 0x022 1 0]).fatal = false ∧
      (writer 3 [cmd 0x022 1 0]).operandA ≠ 0 ∧ (writer 3 [cmd 0x022 0xFFFFFFFFFFFFFFFF 0]).operandA ≠ 0 := by decide

/-- A = 0 and A = 1 for the codec; the slice address 0 and 0xFFFFFFFFFFFFFFFF for READ and WRITE. -/
theorem witness_CodecChecksTheStartAddressAlone :
    (start [] [cmd 0x001 0 0]).operandA = 0 ∧ (start [] [cmd 0x001 1 0]).operandA ≠ 0 ∧
      (∀ k ∈ [Session.reader, .writer],
        (opened k .le 0xFFFFFFFFFFFFFFFC 8 4 [] []).session = k ∧ Tag.u32.byteLen ≤ (8#64).toNat - (4#64).toNat ∧
          (opened k .le 0xFFFFFFFFFFFFFFFC 8 4 [] []).cursor = 0 ∧
          (opened k .le 0xFFFFFFFFFFFFFFFC 8 3 [] []).cursor ≠ 0) := by decide

theorem witness_GetValueIsTheAssembledNumber :
    ([0x80, 0] : List Byte).length = Tag.i16.byteLen ∧ Tag.i16.signed = true ∧
      ([0xFF, 0xFF, 0xFF] : List Byte).length = Tag.u24.byteLen ∧ Tag.u24.signed = false := by decide

theorem witness_OddWidthsAreNeverSignExtended :
    Tag.i16.signed = true ∧ (0xA#4).getLsbD 3 = true ∧ ((0xA#4).extractLsb' 0 3).toNat + 1 ∈ [3, 5, 6, 7] ∧
    Tag.u24.byteLen ∈ [3, 5, 6, 7] ∧ ([0xFF, 0xFF, 0xFF] : List Byte).length = Tag.u24.byteLen := by decide

/-- The highest byte of the widest tag, and two values with the same low bits. -/
theorem witness_PutBytesAreTheLowBytes :
    7 < Tag.u64.byteLen ∧
      (0x11AABBCC#64).toNat % 2 ^ (8 * Tag.u24.byteLen) = (0xAABBCC#64).toNat % 2 ^ (8 * Tag.u24.byteLen) := by decide

/-- Representable at the ends of the ranges, and not representable (95_test_vectors.md 2.3). -/
theorem witness_DecodeAfterEncodeIsSymmetric :
    (0xFFFFFF#64).toNat < 2 ^ (8 * Tag.u24.byteLen) ∧
      ((0xFFFFFFFFFFFFFF80 : Word).setWidth (8 * Tag.i8.byteLen)).signExtend 64 = (0xFFFFFFFFFFFFFF80 : Word) ∧
      ((0x80 : Word).setWidth (8 * Tag.i8.byteLen)).signExtend 64 ≠ (0x80 : Word) := by decide

theorem witness_BigEndianMirrorsLittleEndian :
    4 < Tag.u40.byteLen ∧ ([1, 2, 3, 4, 5] : List Byte).length = Tag.u40.byteLen := by decide

/-- W1: `CPUT.be i16` and `CGET.be i16` of -32768. -/
theorem witness_PutThenGetReturnsTheValue :
    encode (Command.cput .i16 .be).instr = 0x192 ∧ encode (Command.cget .i16 .be).instr = 0x191 ∧
      (start [] [cmd 0x192 0x1000 0xFFFFFFFFFFFF8000, cmd 0x191 0x1000 0]).mutated = [] ∧
      responds (start [] [cmd 0x192 0x1000 0xFFFFFFFFFFFF8000, cmd 0x191 0x1000 0]) 0 = true ∧
      ((0xFFFFFFFFFFFF8000 : Word).setWidth (8 * Tag.i16.byteLen)).signExtend 64 = (0xFFFFFFFFFFFF8000 : Word) := by
  decide

/-- Each of the three gets after the put, at one address. -/
theorem witness_MixedAccessesSeeTheStoredBytes : ∀ p ∈ ([
      (0x011, .cgetU16 .le), (0x111, .cgetU16 .be), (0x131, .cgetU32 .be)] : List (CommandWord × Instr)),
    after (exec (.cputU32 .le) (start [] [cmd 0x032 0x1000 0x01020304, cmd p.1 0x1000 0])) (fun t =>
      t.operandA == 0x1000 && after (exec p.2 t) fun u => u.rsp.isSome) = true := by decide

theorem witness_OpenConstructsTheSession :
    (reader 3 [cmd 0x003 1 1]).fatal = false ∧ (reader 3 [cmd 0x003 1 1]).operandA ≠ 0 ∧
      (reader 3 [cmd 0x003 1 1]).operandB ≠ 0 := by decide

/-- A slice that ends exactly at SIZE. -/
theorem witness_ReadRespondsAndAdvances :
    Instr.readU24.command = .read .u24 ∧ (reader 5 []).fatal = false ∧ (reader 5 []).session = .reader ∧
      Tag.u24.byteLen ≤ (reader 5 []).size.toNat - (reader 5 []).pos.toNat ∧ (reader 5 []).base + (reader 5 []).pos ≠ 0 := by
  decide

theorem witness_WriteStoresAndAdvances :
    Instr.writeU64.command = .write .u64 ∧ (writer 0 []).fatal = false ∧ (writer 0 []).session = .writer ∧
      Tag.u64.byteLen ≤ (writer 0 []).size.toNat - (writer 0 []).pos.toNat ∧
      (writer 0 []).base + (writer 0 []).pos ≠ 0 := by decide

/-- An empty copy at the end of the view, and a copy of all of it. -/
theorem witness_ReadbCopiesOutOfTheBuffer : ∀ s ∈ [reader 8 [cmd 0x007 0 0], reader 0 [cmd 0x007 0 8]],
    s.fatal = false ∧ s.session = .reader ∧ s.operandB.toNat ≤ s.size.toNat - s.pos.toNat := by decide

theorem witness_WritebCopiesIntoTheBuffer : ∀ s ∈ [writer 8 [cmd 0x008 0 0], writer 0 [cmd 0x008 0 8]],
    s.fatal = false ∧ s.session = .writer ∧ s.operandB.toNat ≤ s.size.toNat - s.pos.toNat := by decide

/-- V-S12: the distance is 1, and the last of three bytes ends as the first. -/
theorem witness_OverlappingCopyRepeatsItsFirstBytes :
    (reader 0 []).mutated = [] ∧ 3 ≤ 2 ^ 64 ∧ 2 < 3 ∧ 2 % ((0x1001 : Word) - 0x1000).toNat = 0 := by decide

theorem witness_QueriesRespondSizeAndPosition :
    (reader 8 []).fatal = false ∧ (reader 8 []).session ≠ .none ∧ (writer 0 []).session ≠ .none := by decide

/-- A = SIZE and A = SIZE + 1. -/
theorem witness_SeekMovesWithinTheView :
    (reader 3 [cmd 0x00B 8 0]).operandA.toNat ≤ (reader 3 [cmd 0x00B 8 0]).size.toNat ∧
      (reader 3 [cmd 0x00B 9 0]).size.toNat < (reader 3 [cmd 0x00B 9 0]).operandA.toNat ∧
      (reader 3 [cmd 0x00B 9 0]).fatal = false ∧ (reader 3 [cmd 0x00B 9 0]).session ≠ .none := by decide

theorem witness_SeekThenPositionGivesTheTarget :
    (writer 3 [cmd 0x00B 8 0, cmd 0x00A 0 0]).fatal = false ∧ encode .seek = 0x00B ∧ encode .pos = 0x00A ∧
      (8#64).toNat ≤ (writer 3 [cmd 0x00B 8 0, cmd 0x00A 0 0]).size.toNat := by decide

theorem witness_TwoReadsConsumeAnEightByteBuffer :
    (reader 0 [cmd 0x035 0 0, cmd 0x035 0 0]).session = .reader ∧ encode .readU32 = 0x035 ∧
      (reader 0 [cmd 0x035 0 0, cmd 0x035 0 0]).size = 8 ∧ (reader 0 [cmd 0x035 0 0, cmd 0x035 0 0]).pos = 0 ∧
      (reader 0 [cmd 0x035 0 0, cmd 0x035 0 0]).base ≠ 0 ∧ (reader 0 [cmd 0x035 0 0, cmd 0x035 0 0]).base + 4 ≠ 0 := by
  decide

/-- A reader and a writer at their ends, with an empty and a nonempty copy and a seek to SIZE. -/
theorem witness_SessionAtItsEndIsStillOpen :
    (reader 8 []).pos = (reader 8 []).size ∧ (writer 8 []).pos = (writer 8 []).size ∧
      (reader 8 [cmd 0x007 0 0]).operandB = 0 ∧ (writer 8 [cmd 0x008 0 1]).operandB ≠ 0 ∧
      (reader 8 [cmd 0x00B 8 0]).operandA.toNat ≤ (reader 8 [cmd 0x00B 8 0]).size.toNat ∧
      Instr.readU8.command = .read .u8 ∧ Instr.writeI64.command = .write .i64 := by decide

/-- Each of the four advances, up to SIZE. -/
theorem witness_NoAdvancePassesByOverflow : ∀ p ∈ ([
      (reader 0 [cmd 0x075 0 0], .readU64), (writer 7 [cmd 0x006 0 0], .writeU8),
      (reader 0 [cmd 0x007 0x3000 8], .readb), (writer 8 [cmd 0x008 0x1000 0], .writeb)] : List (State × Instr)),
    p.1.Inv ∧ after (exec p.2 p.1) (fun t => !t.fatal) = true := by decide

theorem witness_WrittenValueIsReadBack :
    let s := start [] [cmd 0x104 0x1000 3, cmd 0x026 0 0xABCDEF, cmd 0x103 0x1000 3, cmd 0x025 0 0]
    encode (.openw .be) = 0x104 ∧ encode (Command.write .u24).instr = 0x026 ∧ encode (.openr .be) = 0x103 ∧
      encode (Command.read .u24).instr = 0x025 ∧ Tag.u24.byteLen ≤ (3#64).toNat ∧ s.fatal = false ∧ s.mutated = [] ∧
      (0xABCDEF#64).toNat < 2 ^ (8 * Tag.u24.byteLen) := by decide

theorem witness_ReadReturnsTheLastWrite : (reader 0 []).mutated = [] := by decide

/-- A completing command of each kind of count, and a failing one. -/
theorem witness_AccessCountsByCommand : ∀ p ∈ ([
      (start ascending [cmd 0x071 0x1000 0], .cgetU64 .le, 8, 0), (start [] [cmd 0x002 1 9], .cputU8 .le, 0, 1),
      (reader 0 [], .readU24, 3, 0), (writer 0 [], .writeU64, 0, 8), (reader 0 [cmd 0x007 0x3000 8], .readb, 8, 8),
      (reader 3 [cmd 0x004 0x1000 8], .openw .le, 0, 0), (reader 8 [], .size, 0, 0),
      (writer 0 [cmd 0x008 0x1000 0], .writeb, 0, 0), (reader 8 [], .readU8, 0, 0)] :
        List (State × Instr × Nat × Nat)),
    p.1.accesses = [] ∧ after (exec p.2.1 p.1) (fun t =>
      (t.accesses.filter fun x => !x.isWrite).length == p.2.2.1 &&
        (t.accesses.filter fun x => x.isWrite).length == p.2.2.2) = true := by decide

theorem witness_NoCommandRepeatsAnAccess :
    (reader 0 [cmd 0x007 0x1001 3]).accesses = [] ∧
      after (exec .readb (reader 0 [cmd 0x007 0x1001 3])) (fun t => t.accesses.length == 6) = true := by decide

/-- The last access of each command that makes one: the last byte of the slice, of the buffer or of the bulk view. -/
theorem witness_AccessesStayWhereTheRulesSay : ∀ p ∈ ([
      (start ascending [cmd 0x071 0x1000 0], .cgetU64 .le, .read 0x1007),
      (start [] [cmd 0x112 0xFFFFFFFFFFFFFFFF 0x1234], .cputU16 .be, .write 0 0x34),
      (reader 0 [cmd 0x075 0 0], .readU64, .read 0x1007), (writer 7 [cmd 0x006 0 0x5A], .writeU8, .write 0x2007 0x5A),
      (reader 0 [cmd 0x007 0x3000 8], .readb, .write 0x3007 8),
      (writer 0 [cmd 0x008 0x1000 8], .writeb, .write 0x2007 8)] : List (State × Instr × Access)),
    p.1.Inv ∧ p.1.accesses = [] ∧
      after (exec p.2.1 p.1) (fun t => t.accesses.getLast? == some p.2.2) = true := by decide

theorem witness_MemoryChangesOnlyByRecordedWrites :
    (start ascending [cmd 0x002 0x1000 9]).accesses = [] ∧
      after (exec (.cputU8 .le) (start ascending [cmd 0x002 0x1000 9])) (fun t =>
        t.mem.read 0x1000 == 9 && t.accesses == [.write 0x1000 9]) = true ∧ ascending.read 0x1000 = 1 := by decide

/-- A response of each kind, and a command that halts. -/
theorem witness_ExactlyOneResponsePerCompletedCommand : ∀ p ∈ ([
      (start ascending [cmd 0x011 0x1000 0], .cgetU16 .le, some 0x0201), (reader 0 [], .readU16, some 0x0102),
      (reader 3 [], .size, some 8), (reader 3 [], .pos, some 3), (reader 3 [cmd 0x00B 8 0], .seek, some 0),
      (reader 8 [], .readU8, none)] : List (State × Instr × Option Word)),
    after (exec p.2.1 p.1) (fun t => t.rsp == p.2.2 && t.fatal == p.2.2.isNone) = true := by decide

/-- Commands that ignore both operands, A alone, B alone and none. -/
theorem witness_IgnoredOperandsHaveNoEffect :
    (reader 0 [cmd 0x035 1 2]).program[0]? = some (cmd 0x035 1 2) ∧ Instr.readU32.command = .read .u32 ∧
      Instr.size.command = .size ∧ Instr.pos.command = .pos ∧
      (writer 0 [cmd 0x036 1 2]).program[0]? = some (cmd 0x036 1 2) ∧ Instr.writeU32.command = .write .u32 ∧
      (reader 0 [cmd 0x00B 8 2]).program[0]? = some (cmd 0x00B 8 2) ∧ Instr.seek.command = .seek ∧
      (Instr.cgetU8 .le).command = .cget .u8 .le ∧ Instr.readb.command = .readb := by decide

theorem witness_ClosedRegistersCannotBeObserved : (start [] [cmd 0x003 0x1000 8]).session = .none := by decide

theorem witness_BulkCopyIgnoresTheByteOrder :
    after (exec .readb { reader 0 [cmd 0x007 0x3000 2] with order := .le }) (fun t => t.pos == 2) = true ∧
      after (exec .writeb { writer 0 [cmd 0x008 0x1000 2] with order := .be }) (fun t => t.pos == 2) = true := by
  decide

/-- A store to the last byte of the buffer, one to the byte after it, and one with no session. -/
theorem witness_ForeignStoreUnsettlesTheBuffer :
    (reader 0 [.store 0x1007 9]).fatal = false ∧ (0x1007 - 0x1000#64).toNat < (reader 0 []).size.toNat ∧
      (reader 0 []).size.toNat ≤ (0x1008 - 0x1000#64).toNat ∧ (start [] [.store 0x1007 9]).session = .none ∧
      after (core.run 1 (reader 0 [.store 0x1007 9])) (fun t => t.unsettled 0x1000) = true ∧
      after (core.run 0 { reader 0 [] with mutated := [⟨0x1000, 8⟩] }) (fun t => t.unsettled 0x1007) = true := by
  decide

theorem witness_FreedBufferIsUnsaid :
    (reader 0 [.endBuffer]).fatal = false ∧ (reader 0 [.endBuffer]).program[0]? = some .endBuffer ∧
      (reader 0 [.endBuffer]).session ≠ .none ∧ (start [] [.endBuffer]).session = .none := by decide

/-- A run that ends successfully, one that ends faulted, and one whose command is aborted. -/
theorem witness_RunEndsSuccessfullyOrFaulted : ∀ p ∈ ([
      (reader 7 [cmd 0x005 0 0], true, false), (reader 8 [cmd 0x005 0 0], false, true),
      (reader 7 [.abort ⟨0x009, 0, 0⟩], false, false)] : List (State × Bool × Bool)),
    p.1.fatal = false ∧ p.1.unanswered = [] ∧ .endBuffer ∉ p.1.program ∧
      after (core.run 1 p.1) (fun t => decide t.Succeeded == p.2.1 && decide t.Faulted == p.2.2) = true := by decide

theorem witness_RunEndsSuccessfullyOrFaulted_inv :
    (reader 7 [cmd 0x005 0 0]).Inv ∧ (reader 8 [cmd 0x005 0 0]).Inv := by decide

/-- The invariant with a cause to raise, the buffer across the top of the address space for READ's NULL_POINTER, and an
operation code. -/
theorem witness_CausesEachCommandCanRaise :
    (opened .reader .le 0xFFFFFFFFFFFFFFFC 8 4 [] [cmd 0x005 0 0]).Inv ∧
      after (exec .readU8 (opened .reader .le 0xFFFFFFFFFFFFFFFC 8 4 [] [cmd 0x005 0 0])) (fun t =>
        t.fatal && t.cause == .nullPointer) = true ∧
      Instr.readU8.command = .read .u8 ∧ decode 0x20B = .error .reservedBits := by decide

end Sys2Proof.Tests
end

section
/-!
The decoder as the inverse of the encoder, and which words it reads (30_encoding.md).
-/
namespace Sys2Proof

/-! ### Tags (R74) -/

@[simp] theorem tagOfCode_code (t : Tag) : tagOfCode t.code = some t := by cases t <;> rfl

theorem code_of_tagOfCode {c : BitVec 4} {t : Tag} (h : tagOfCode c = some t) : t.code = c := by
  have all : ∀ c : BitVec 4, ∀ t ∈ tagOfCode c, t.code = c := by decide
  exact all c t h

theorem Tag.code_descriptor (t : Tag) :
    (t.code.extractLsb' 0 3).toNat + 1 = t.byteLen ∧ t.code.getLsbD 3 = t.signed := by
  cases t <;> decide

theorem tagOfCode_eq_none_iff (c : BitVec 4) :
    tagOfCode c = none ↔ (c = 0xA ∨ c = 0xC ∨ c = 0xD ∨ c = 0xE) := by
  revert c; decide

theorem exists_tagOfCode_iff (c : BitVec 4) :
    (∃ t, tagOfCode c = some t) ↔ c.toNat ∈ [0, 1, 2, 3, 4, 5, 6, 7, 8, 9, 0xB, 0xF] := by
  rw [← Option.isSome_iff_exists]
  revert c; decide

/-! ### Byte orders (R75) -/

@[simp] theorem orderOfBit_bit (e : ByteOrder) : orderOfBit e.bit = e := by cases e <;> rfl

@[simp] theorem bit_orderOfBit (e : BitVec 1) : (orderOfBit e).bit = e := by revert e; decide

/-! ### The fields of a word (R73) -/

@[simp] theorem fieldsOf_wordOf (op tag : BitVec 4) (e : BitVec 1) :
    fieldsOf (wordOf op tag e) = ⟨0, e, tag, op⟩ := by
  have past_op (start len : Nat) (h : 4 ≤ start) :
      (wordOf op tag e).extractLsb' start len = ((0 : BitVec 23) ++ e ++ tag).extractLsb' (start - 4) len :=
    BitVec.extractLsb'_append_eq_of_le h
  have past_tag (start len : Nat) (h : 4 ≤ start) :
      ((0 : BitVec 23) ++ e ++ tag).extractLsb' start len = ((0 : BitVec 23) ++ e).extractLsb' (start - 4) len :=
    BitVec.extractLsb'_append_eq_of_le h
  have hop : (wordOf op tag e).extractLsb' 0 4 = op := BitVec.extractLsb'_append_eq_right
  simp only [fieldsOf, Fields.mk.injEq, hop, past_op 9 23 (by decide), past_op 8 1 (by decide),
    past_op 4 4 (by decide), past_tag 5 23 (by decide), past_tag 4 1 (by decide)]
  exact ⟨BitVec.extractLsb'_append_eq_left, BitVec.extractLsb'_append_eq_right, BitVec.extractLsb'_append_eq_right,
    trivial⟩

/-- The four fields are the whole word. -/
theorem fieldsOf_injective : Function.Injective fieldsOf := by
  intro v w h
  simp only [fieldsOf, Fields.mk.injEq, BitVec.toNat_eq, BitVec.extractLsb'_toNat, Nat.shiftRight_eq_div_pow] at h
  refine BitVec.eq_of_toNat_eq ?_
  omega

/-- The field E is bit 8. -/
theorem fieldsOf_e_eq_zero_iff (w : CommandWord) : (fieldsOf w).e = 0 ↔ w.getLsbD 8 = false := by
  have he : (fieldsOf w).e = BitVec.ofBool (w.getLsbD 8) := by
    ext i hi
    obtain rfl : i = 0 := by omega
    simp [fieldsOf]
  rw [he]
  cases w.getLsbD 8 <;> decide

/-! ### The checks of R78, by the value of each field -/

theorem Fields.takesTag_iff (f : Fields) : f.takesTag = true ↔ f.op.toNat ∈ [0x1, 0x2, 0x5, 0x6] := by
  simp [Fields.takesTag, BitVec.toNat_eq, or_assoc]

theorem Fields.takesOrder_iff (f : Fields) : f.takesOrder = true ↔ f.op.toNat ∈ [0x1, 0x2, 0x3, 0x4] := by
  simp [Fields.takesOrder, BitVec.toNat_eq, or_assoc]

theorem Fields.legalTag_iff (f : Fields) :
    f.legalTag = true ↔ f.tag.toNat ∈ [0, 1, 2, 3, 4, 5, 6, 7, 8, 9, 0xB, 0xF] := by
  simp only [legalTag, BitVec.ofNat_eq_ofNat, Bool.or_eq_true, decide_eq_true_eq, beq_iff_eq, BitVec.toNat_eq,
    BitVec.toNat_ofNat, Nat.reducePow, Nat.reduceMod, Nat.mod_succ, List.mem_cons, List.not_mem_nil, or_false]
  omega

theorem Fields.legal_iff (f : Fields) :
    f.legal = true ↔
      f.rsv = 0 ∧ (1 ≤ f.op.toNat ∧ f.op.toNat ≤ 0xB) ∧
        (f.op.toNat ∈ [0x1, 0x2, 0x5, 0x6] → f.tag.toNat ∈ [0, 1, 2, 3, 4, 5, 6, 7, 8, 9, 0xB, 0xF]) ∧
        (f.op.toNat ∉ [0x1, 0x2, 0x5, 0x6] → f.tag = 0) ∧
        (f.op.toNat ∉ [0x1, 0x2, 0x3, 0x4] → f.e = 0) := by
  rw [← f.takesTag_iff, ← f.takesOrder_iff, ← f.legalTag_iff]
  simp only [Fields.legal, Fields.rsvOk, Fields.opOk, Fields.tagOk, Fields.orderOk]
  cases f.takesTag <;> cases f.takesOrder <;> simp [and_assoc]

/-! ### The decoder's parts -/

section
variable {f : Fields} {c : Command} {k : Except Illegal Command}

theorem withTag_eq_ok_iff {k : Tag → Command} : withTag f k = .ok c ↔ ∃ t, tagOfCode f.tag = some t ∧ k t = c := by
  unfold withTag
  cases tagOfCode f.tag <;> simp

theorem withoutTag_eq_ok_iff : withoutTag f k = .ok c ↔ f.tag = 0 ∧ k = .ok c := by
  grind [withoutTag]

theorem withoutOrder_eq_ok_iff : withoutOrder f k = .ok c ↔ f.e = 0 ∧ k = .ok c := by
  grind [withoutOrder]

end

theorem decodeFields_word (c : Command) : decodeFields (fieldsOf c.word) = .ok c := by
  cases c <;> simp [Command.word, decodeFields, withTag, withoutTag, withoutOrder]

/-- The converse of `decodeFields_word`: the decoder reads a command from no fields but those of its own word. -/
theorem fieldsOf_word_of_decodeFields {f : Fields} {c : Command} (h : decodeFields f = .ok c) :
    fieldsOf c.word = f := by
  obtain ⟨rsv, e, tag, op⟩ := f
  simp only [decodeFields] at h
  split at h
  case isTrue => cases h
  case isFalse hrsv =>
    obtain rfl : rsv = 0 := not_not.mp hrsv
    split at h
    case h_12 => cases h
    all_goals
      rename_i hn
      simp only [withTag_eq_ok_iff, withoutTag_eq_ok_iff, withoutOrder_eq_ok_iff, Except.ok.injEq] at h
    case h_1 | h_2 =>
      obtain ⟨t, ht, rfl⟩ := h
      simp [Command.word, code_of_tagOfCode ht, BitVec.toNat_eq, hn]
    case h_3 | h_4 =>
      obtain ⟨rfl, rfl⟩ := h
      simp [Command.word, BitVec.toNat_eq, hn]
    case h_5 | h_6 =>
      obtain ⟨rfl, t, ht, rfl⟩ := h
      simp [Command.word, code_of_tagOfCode ht, BitVec.toNat_eq, hn]
    all_goals
      obtain ⟨rfl, rfl, rfl⟩ := h
      simp [Command.word, BitVec.toNat_eq, hn]

/-- Legal fields are read, and no others (R78). -/
theorem exists_decodeFields_eq_ok_iff (f : Fields) : (∃ c, decodeFields f = .ok c) ↔ f.legal = true := by
  rw [f.legal_iff, ← exists_tagOfCode_iff]
  unfold decodeFields
  split
  case isTrue hrsv => simp only [reduceCtorEq, exists_false, hrsv, false_and]
  case isFalse hrsv =>
    rw [not_not] at hrsv
    split
    case h_12 =>
      simp only [reduceCtorEq, exists_false, false_iff]
      rintro ⟨-, ⟨hlo, hhi⟩, -⟩
      grind
    all_goals
      simp [withTag_eq_ok_iff, withoutTag_eq_ok_iff, withoutOrder_eq_ok_iff, *, and_comm]

/-! ### The decoder and the encoder -/

theorem decode_encode (i : Instr) : decode (encode i) = .ok i := by
  simp [decode, encode, decodeFields_word]

theorem decode_eq_ok_iff {w : CommandWord} {i : Instr} :
    decode w = .ok i ↔ ∃ c, decodeFields (fieldsOf w) = .ok c ∧ c.instr = i := by
  unfold decode
  cases decodeFields (fieldsOf w) <;> simp

theorem encode_of_decode {w : CommandWord} {i : Instr} (h : decode w = .ok i) : encode i = w := by
  obtain ⟨c, hc, rfl⟩ := decode_eq_ok_iff.mp h
  rw [encode, Machine.command_instr]
  exact fieldsOf_injective (fieldsOf_word_of_decodeFields hc)

theorem exists_decode_eq_ok_iff_legal (w : CommandWord) : (∃ i, decode w = .ok i) ↔ (fieldsOf w).legal = true := by
  rw [← exists_decodeFields_eq_ok_iff]
  simp only [decode_eq_ok_iff]
  exact ⟨fun ⟨_, c, h, _⟩ => ⟨c, h⟩, fun ⟨c, h⟩ => ⟨c.instr, c, h, rfl⟩⟩

theorem exists_decode_eq_ok_iff (w : CommandWord) :
    (∃ i, decode w = .ok i) ↔
      (w.extractLsb' 9 23 = 0 ∧
        (1 ≤ (w.extractLsb' 0 4).toNat ∧ (w.extractLsb' 0 4).toNat ≤ 0xB) ∧
        ((w.extractLsb' 0 4).toNat ∈ [0x1, 0x2, 0x5, 0x6] →
          (w.extractLsb' 4 4).toNat ∈ [0, 1, 2, 3, 4, 5, 6, 7, 8, 9, 0xB, 0xF]) ∧
        ((w.extractLsb' 0 4).toNat ∉ [0x1, 0x2, 0x5, 0x6] → w.extractLsb' 4 4 = 0) ∧
        ((w.extractLsb' 0 4).toNat ∉ [0x1, 0x2, 0x3, 0x4] → w.getLsbD 8 = false)) := by
  rw [exists_decode_eq_ok_iff_legal, Fields.legal_iff, fieldsOf_e_eq_zero_iff]
  rfl

theorem exists_decode_eq_error_iff_not_ok (w : CommandWord) :
    (∃ r, decode w = .error r) ↔ ¬ ∃ i, decode w = .ok i := by
  cases decode w <;> simp

theorem reserved_code_iff (c : BitVec 4) :
    c.toNat ∉ [0, 1, 2, 3, 4, 5, 6, 7, 8, 9, 0xB, 0xF] ↔ c.toNat ∈ [0xA, 0xC, 0xD, 0xE] := by
  revert c; decide

/-- The five defects of R80 are what the five conditions of R78 leave. -/
theorem exists_decode_eq_error_iff_defect (w : CommandWord) :
    (∃ r, decode w = .error r) ↔
      ((w.extractLsb' 0 4).toNat = 0 ∨ 0xC ≤ (w.extractLsb' 0 4).toNat ∨
        ((w.extractLsb' 0 4).toNat ∈ [0x1, 0x2, 0x5, 0x6] ∧ (w.extractLsb' 4 4).toNat ∈ [0xA, 0xC, 0xD, 0xE]) ∨
        ((w.extractLsb' 0 4).toNat ∉ [0x1, 0x2, 0x5, 0x6] ∧ w.extractLsb' 4 4 ≠ 0) ∨
        ((w.extractLsb' 0 4).toNat ∉ [0x1, 0x2, 0x3, 0x4] ∧ w.getLsbD 8 = true) ∨
        w.extractLsb' 9 23 ≠ 0) := by
  have hop : ¬ (1 ≤ (w.extractLsb' 0 4).toNat ∧ (w.extractLsb' 0 4).toNat ≤ 0xB) ↔
      (w.extractLsb' 0 4).toNat = 0 ∨ 0xC ≤ (w.extractLsb' 0 4).toNat := by omega
  rw [exists_decode_eq_error_iff_not_ok, exists_decode_eq_ok_iff, not_and_or,
    not_and_or (a := _ ∧ _), hop, not_and_or, not_and_or, or_comm]
  simp only [Classical.not_imp, reserved_code_iff, Bool.not_eq_false, ne_eq, or_assoc]

/-! ### The 81 words (R78) -/

def Tag.all : List Tag := [.u8, .u16, .u24, .u32, .u40, .u48, .u56, .u64, .i8, .i16, .i32, .i64]

theorem Tag.mem_all (t : Tag) : t ∈ Tag.all := by cases t <;> decide

def ByteOrder.all : List ByteOrder := [.le, .be]

theorem ByteOrder.mem_all (e : ByteOrder) : e ∈ ByteOrder.all := by cases e <;> decide

/-- Every command, in the order of R78's count. -/
def Command.all : List Command :=
  List.flatten
    [ Tag.all.flatMap fun t => ByteOrder.all.map (Command.cget t),
      Tag.all.flatMap fun t => ByteOrder.all.map (Command.cput t),
      ByteOrder.all.map Command.openr,
      ByteOrder.all.map Command.openw,
      Tag.all.map Command.read,
      Tag.all.map Command.write,
      [Command.readb, Command.writeb, Command.size, Command.pos, Command.seek] ]

theorem Command.mem_all (c : Command) : c ∈ Command.all := by
  cases c <;> simp [Command.all, Tag.mem_all, ByteOrder.mem_all]

theorem Command.all_nodup : Command.all.Nodup := by decide

/-- The words that spell a command: one for each. -/
def legalWords : List CommandWord := Command.all.map Command.word

theorem mem_legalWords_iff (w : CommandWord) : w ∈ legalWords ↔ ∃ i, decode w = .ok i := by
  simp only [legalWords, List.mem_map]
  constructor
  · rintro ⟨c, -, rfl⟩
    exact ⟨c.instr, by simpa [encode] using decode_encode c.instr⟩
  · rintro ⟨i, h⟩
    exact ⟨i.command, i.command.mem_all, encode_of_decode h⟩

theorem Command.word_injective : Function.Injective Command.word := by
  intro c d h
  simpa [decodeFields_word] using congrArg (fun w => decodeFields (fieldsOf w)) h

theorem legalWords_nodup : legalWords.Nodup := Command.all_nodup.map Command.word_injective

theorem legalWords_length : legalWords.length = 81 := by decide

/-- The operation of a command as a number (R77). -/
def Command.op : Command → Nat
  | .cget _ _ => 0x1
  | .cput _ _ => 0x2
  | .openr _ => 0x3
  | .openw _ => 0x4
  | .read _ => 0x5
  | .write _ => 0x6
  | .readb => 0x7
  | .writeb => 0x8
  | .size => 0x9
  | .pos => 0xA
  | .seek => 0xB

theorem Command.word_op (c : Command) : (c.word.extractLsb' 0 4).toNat = c.op := by
  change (fieldsOf c.word).op.toNat = c.op
  cases c <;> simp [Command.word, Command.op]

theorem legalWords_count :
    (List.range 16).map (fun op => (legalWords.filter fun w => (w.extractLsb' 0 4).toNat == op).length) =
      [0, 24, 24, 2, 2, 12, 12, 1, 1, 1, 1, 1, 0, 0, 0, 0] := by
  simp only [legalWords, List.filter_map, List.length_map, Function.comp_def, Command.word_op]
  decide

end Sys2Proof

namespace Sys2Proof.Machine

theorem fetch_illegal {s : State} {c : Transfer} {r : Illegal} (hf : s.fatal = false)
    (hp : s.program[s.index]? = some (.command c)) (hd : decode c.word = .error r) : s.fetch = .illegal r := by
  simp [State.fetch, hf, hp, hd]

theorem step_illegal {s : State} {c : Transfer} {r : Illegal} (hf : s.fatal = false)
    (hp : s.program[s.index]? = some (.command c)) (hd : decode c.word = .error r) :
    step s = .next (s.accept.raiseFatal .illegalCommand) := by
  simp [step, fetch_illegal hf hp hd]

end Sys2Proof.Machine
end

section
/-!
The obligations of 30_encoding.md on tags and legal words.
-/
open Sys2Proof Sys2Proof.Machine

/-- Settles O2: the descriptor of each tag, and the two directions between tags and codes. -/
theorem tagCodesAreTheirDescriptors : Obligations.TagCodesAreTheirDescriptors := by
  unfold Obligations.TagCodesAreTheirDescriptors
  refine ⟨fun t => ?_, tagOfCode_eq_none_iff⟩
  obtain ⟨hlen, hsigned⟩ := t.code_descriptor
  exact ⟨hlen, hsigned, tagOfCode_code t⟩

/-- Settles O4: the decoder reads exactly the words with legal fields, which are the words of the 81 commands. -/
theorem legalWordsAreThoseDecoded : Obligations.LegalWordsAreThoseDecoded := by
  unfold Obligations.LegalWordsAreThoseDecoded
  exact ⟨exists_decode_eq_ok_iff, fun w => (exists_decode_eq_ok_iff_legal w).symm,
    legalWords, legalWords_nodup, legalWords_length, mem_legalWords_iff, legalWords_count⟩

/-- Settles O5: an illegal word has one of the five defects, and the step on it is the entry into the fatal halt. -/
theorem illegalWordHaltsTheBlock : Obligations.IllegalWordHaltsTheBlock := by
  unfold Obligations.IllegalWordHaltsTheBlock
  exact ⟨exists_decode_eq_error_iff_defect, fun _ _ _ => step_illegal⟩
end

section
/-!
The pure codec functions as arithmetic (R113, R115, R116): what bytes assemble to, what a tag spells of it, and the
bytes of a value.
-/
namespace Sys2Proof.Machine

/-! ### The number of a slice (R12, R115) -/

/-- The bytes from offset `i` on in a slice of `len` bytes, each at the weight of its lane: `patternOf` from `i` on. -/
def patternFrom (e : ByteOrder) (len i : Nat) (bs : List Byte) : Nat :=
  ((bs.zipIdx i).map fun p => p.1.toNat * 2 ^ lane e len p.2).sum

theorem patternOf_eq_patternFrom (e : ByteOrder) (bs : List Byte) :
    patternOf e bs = patternFrom e bs.length 0 bs := rfl

@[simp] theorem patternFrom_nil (e : ByteOrder) (len i : Nat) : patternFrom e len i [] = 0 := rfl

theorem patternFrom_cons (e : ByteOrder) (len i : Nat) (b : Byte) (bs : List Byte) :
    patternFrom e len i (b :: bs) = b.toNat * 2 ^ lane e len i + patternFrom e len (i + 1) bs := by
  simp [patternFrom, List.zipIdx_cons]

theorem lane_be_zero (len : Nat) : lane .be (len + 1) 0 = 8 * len := rfl

theorem lane_be_succ (len i : Nat) : lane .be (len + 1) (i + 1) = lane .be len i := by
  simp only [lane]; omega

theorem lane_add_eight_le {len i : Nat} (e : ByteOrder) (h : i < len) : lane e len i + 8 ≤ 8 * len := by
  cases e <;> simp only [lane] <;> omega

/-- Little-endian lanes rise: one offset on, every byte weighs 2^8 times as much. -/
theorem patternFrom_le_succ (len len' i : Nat) (bs : List Byte) :
    patternFrom .le len (i + 1) bs = 2 ^ 8 * patternFrom .le len' i bs := by
  induction bs generalizing i with
  | nil => rfl
  | cons b bs ih =>
    rw [patternFrom_cons, patternFrom_cons, ih (i + 1)]
    simp only [lane, Nat.mul_add, Nat.pow_add]
    ring

/-- Big-endian lanes count from the end: they do not see the bytes before. -/
theorem patternFrom_be_succ (len i : Nat) (bs : List Byte) :
    patternFrom .be (len + 1) (i + 1) bs = patternFrom .be len i bs := by
  induction bs generalizing i with
  | nil => rfl
  | cons b bs ih => rw [patternFrom_cons, patternFrom_cons, ih (i + 1), lane_be_succ]

@[simp] theorem patternOf_nil (e : ByteOrder) : patternOf e [] = 0 := rfl

theorem patternOf_le_cons (b : Byte) (bs : List Byte) :
    patternOf .le (b :: bs) = 2 ^ 8 * patternOf .le bs + b.toNat := by
  rw [patternOf_eq_patternFrom, patternFrom_cons, patternFrom_le_succ _ bs.length, ← patternOf_eq_patternFrom]
  simp [lane, Nat.add_comm]

theorem patternOf_be_cons (b : Byte) (bs : List Byte) :
    patternOf .be (b :: bs) = 2 ^ (8 * bs.length) * b.toNat + patternOf .be bs := by
  rw [patternOf_eq_patternFrom, patternFrom_cons, List.length_cons, lane_be_zero, patternFrom_be_succ,
    ← patternOf_eq_patternFrom, Nat.mul_comm]

theorem patternOf_lt (e : ByteOrder) (bs : List Byte) : patternOf e bs < 2 ^ (8 * bs.length) := by
  induction bs with
  | nil => simp
  | cons b bs ih =>
    have hb := b.isLt
    rw [List.length_cons, Nat.mul_add, Nat.pow_add]
    cases e with
    | le => rw [patternOf_le_cons]; omega
    | be =>
      have hstep := Nat.mul_le_mul_left (2 ^ (8 * bs.length)) (Nat.succ_le_of_lt hb)
      rw [Nat.mul_succ] at hstep
      rw [patternOf_be_cons]
      omega

/-! ### The bytes in their lanes -/

theorem assembleFrom_le_succ (len len' i : Nat) (bs : List Byte) :
    assembleFrom .le len (i + 1) bs = assembleFrom .le len' i bs <<< 8 := by
  induction bs generalizing i with
  | nil => simp [assembleFrom]
  | cons b bs ih =>
    simp only [assembleFrom, ih (i + 1), lane, BitVec.shiftLeft_or_distrib, ← BitVec.shiftLeft_add, Nat.mul_add]

theorem assembleFrom_be_succ (len i : Nat) (bs : List Byte) :
    assembleFrom .be (len + 1) (i + 1) bs = assembleFrom .be len i bs := by
  induction bs generalizing i with
  | nil => rfl
  | cons b bs ih => simp only [assembleFrom, ih (i + 1), lane_be_succ]

theorem assembleFrom_le_cons (b : Byte) (bs : List Byte) :
    assembleFrom .le (b :: bs).length 0 (b :: bs) =
      assembleFrom .le bs.length 0 bs <<< 8 ||| b.setWidth 64 := by
  rw [assembleFrom, assembleFrom_le_succ _ bs.length]
  simp [lane, BitVec.or_comm]

theorem assembleFrom_be_cons (b : Byte) (bs : List Byte) :
    assembleFrom .be (b :: bs).length 0 (b :: bs) =
      b.setWidth 64 <<< (8 * bs.length) ||| assembleFrom .be bs.length 0 bs := by
  rw [assembleFrom, List.length_cons, lane_be_zero, assembleFrom_be_succ]

/-- In a word, a high part above `k` bits of a low part: their union is their sum. -/
theorem toNat_shiftLeft_or {x y : Word} {k : Nat} (hx : 2 ^ k * x.toNat < 2 ^ 64) (hy : y.toNat < 2 ^ k) :
    (x <<< k ||| y).toNat = 2 ^ k * x.toNat + y.toNat := by
  rw [BitVec.toNat_or, BitVec.toNat_shiftLeft, Nat.shiftLeft_eq, Nat.mul_comm, Nat.mod_eq_of_lt hx,
    Nat.two_pow_add_eq_or_of_lt hy]

/-- The union of the bytes in their lanes is the sum that `patternOf` takes: no two lanes overlap, and eight bytes fit
in a word. -/
theorem toNat_assembleFrom (e : ByteOrder) (bs : List Byte) (hlen : bs.length ≤ 8) :
    (assembleFrom e bs.length 0 bs).toNat = patternOf e bs := by
  induction bs with
  | nil => rfl
  | cons b bs ih =>
    rw [List.length_cons] at hlen
    have ih := ih (by omega)
    have hb : (b.setWidth 64).toNat = b.toNat := BitVec.toNat_setWidth_of_le (by decide)
    have hlt := patternOf_lt e (b :: bs)
    have hfits : 2 ^ (8 * (b :: bs).length) ≤ 2 ^ 64 :=
      Nat.pow_le_pow_right (by decide) (by rw [List.length_cons]; omega)
    cases e with
    | le =>
      rw [patternOf_le_cons] at hlt ⊢
      rw [assembleFrom_le_cons, toNat_shiftLeft_or, ih, hb]
      · rw [ih]; omega
      · rw [hb]; exact b.isLt
    | be =>
      rw [patternOf_be_cons] at hlt ⊢
      rw [assembleFrom_be_cons, toNat_shiftLeft_or, ih, hb]
      · rw [hb]; omega
      · rw [ih]; exact patternOf_lt .be bs

/-! ### The spelling of a pattern (R101 to R113) -/

theorem toNat_spell_of_unsigned {t : Tag} (h : t.signed = false) (p : Word) :
    (spell t p).toNat = p.toNat % 2 ^ (8 * t.byteLen) := by
  have hlt : p.toNat % 2 ^ (8 * t.byteLen) < 2 ^ 64 := (Nat.mod_le _ _).trans_lt p.isLt
  rw [spell, h, if_neg Bool.false_ne_true, BitVec.toNat_setWidth, BitVec.toNat_setWidth, Nat.mod_eq_of_lt hlt]

theorem toInt_eq_intOf {n : Nat} (x : BitVec n) : x.toInt = intOf n x.toNat := by
  have hhalf : 2 * x.toNat < 2 ^ n ↔ x.toNat < 2 ^ (n - 1) := by
    cases n with
    | zero => simp [BitVec.of_length_zero]
    | succ n => rw [Nat.pow_succ, Nat.add_sub_cancel]; omega
  simp [BitVec.toInt_eq_toNat_cond, intOf, hhalf]

theorem toInt_spell_of_signed {t : Tag} (h : t.signed = true) (p : Word) :
    (spell t p).toInt = intOf (8 * t.byteLen) (p.toNat % 2 ^ (8 * t.byteLen)) := by
  have hlen := Tag.byteLen_pos t
  rw [spell, if_pos h, BitVec.toInt_signExtend_of_le (by omega), toInt_eq_intOf, BitVec.toNat_setWidth]

/-- What a get spells: the pattern of its bytes, which already fits the tag's width. -/
theorem toNat_assembled_mod {t : Tag} (e : ByteOrder) {bs : List Byte} (hlen : bs.length = t.byteLen) :
    (assembleFrom e t.byteLen 0 bs).toNat % 2 ^ (8 * t.byteLen) = patternOf e bs := by
  rw [← hlen, toNat_assembleFrom e bs (hlen ▸ (Tag.byteLen_pos t).2), Nat.mod_eq_of_lt (patternOf_lt e bs)]

/-! ### Odd widths (R113) -/

theorem byteLen_of_signed {t : Tag} (h : t.signed = true) : t.byteLen ∈ [1, 2, 4, 8] := by
  revert h; cases t <;> decide

theorem unsigned_of_odd_byteLen {t : Tag} (h : t.byteLen ∈ [3, 5, 6, 7]) : t.signed = false := by
  revert h; cases t <;> decide

theorem tagOfCode_of_signed_odd (c : BitVec 4) :
    c.getLsbD 3 = true → (c.extractLsb' 0 3).toNat + 1 ∈ [3, 5, 6, 7] → tagOfCode c = none := by
  revert c; decide

/-! ### The bytes of a value (R116) -/

/-- The bytes of a value in the lanes of an `n`-byte slice: `encodeBytes` for any number of bytes. -/
def laneBytes (e : ByteOrder) (n : Nat) (v : Word) : List Byte :=
  (List.range n).map fun i => v.extractLsb' (lane e n i) 8

theorem encodeBytes_eq_laneBytes (e : ByteOrder) (t : Tag) (v : Word) :
    encodeBytes e t v = laneBytes e t.byteLen v := rfl

@[simp] theorem length_laneBytes (e : ByteOrder) (n : Nat) (v : Word) : (laneBytes e n v).length = n := by
  simp [laneBytes]

theorem laneBytes_le_succ (n : Nat) (v : Word) :
    laneBytes .le (n + 1) v = v.extractLsb' 0 8 :: laneBytes .le n (v >>> 8) := by
  simp [laneBytes, List.range_succ_eq_map, lane, Function.comp_def, BitVec.extractLsb', ← Nat.shiftRight_add,
    Nat.mul_add, Nat.add_comm]

theorem laneBytes_be_succ (n : Nat) (v : Word) :
    laneBytes .be (n + 1) v = v.extractLsb' (8 * n) 8 :: laneBytes .be n v := by
  simp [laneBytes, List.range_succ_eq_map, Function.comp_def, lane_be_zero, lane_be_succ]

theorem patternOf_laneBytes (e : ByteOrder) (n : Nat) (v : Word) :
    patternOf e (laneBytes e n v) = v.toNat % 2 ^ (8 * n) := by
  induction n generalizing v with
  | zero => simp [laneBytes, Nat.mod_one]
  | succ n ih =>
    cases e with
    | le =>
      rw [laneBytes_le_succ, patternOf_le_cons, ih, Nat.mul_succ, Nat.add_comm (8 * n), Nat.pow_add, Nat.mod_mul]
      simp [Nat.shiftRight_eq_div_pow, Nat.add_comm]
    | be =>
      rw [laneBytes_be_succ, patternOf_be_cons, ih, length_laneBytes, Nat.mul_succ, Nat.pow_add, Nat.mod_mul]
      simp [Nat.shiftRight_eq_div_pow, Nat.add_comm]

theorem patternOf_encodeBytes (e : ByteOrder) (t : Tag) (v : Word) :
    patternOf e (encodeBytes e t v) = v.toNat % 2 ^ (8 * t.byteLen) := by
  rw [encodeBytes_eq_laneBytes, patternOf_laneBytes]

theorem getElem?_encodeBytes {i : Nat} (e : ByteOrder) (t : Tag) (v : Word) (h : i < t.byteLen) :
    (encodeBytes e t v)[i]? = some (BitVec.ofNat 8 (v.toNat / 2 ^ lane e t.byteLen i)) := by
  simp [encodeBytes, h, BitVec.extractLsb', Nat.shiftRight_eq_div_pow]

/-- Every lane lies in the value's low 8L bits, so the bytes are those of the value cut to them. -/
theorem encodeBytes_eq_of_setWidth (e : ByteOrder) (t : Tag) (v : Word) :
    encodeBytes e t v =
      (List.range t.byteLen).map fun i => (v.setWidth (8 * t.byteLen)).extractLsb' (lane e t.byteLen i) 8 := by
  refine List.map_congr_left fun i hi => ?_
  rw [BitVec.extractLsb'_setWidth_of_le (lane_add_eight_le e (List.mem_range.mp hi))]

theorem encodeBytes_congr_mod {v v' : Word} (e : ByteOrder) (t : Tag)
    (h : v'.toNat % 2 ^ (8 * t.byteLen) = v.toNat % 2 ^ (8 * t.byteLen)) : encodeBytes e t v' = encodeBytes e t v := by
  have hcut : v'.setWidth (8 * t.byteLen) = v.setWidth (8 * t.byteLen) := BitVec.eq_of_toNat_eq (by simpa using h)
  rw [encodeBytes_eq_of_setWidth, encodeBytes_eq_of_setWidth, hcut]

end Sys2Proof.Machine
end

section
/-!
What a running block makes of the checks of a command, and those that come down to the null check of one address
(R130, R193).
-/
namespace Sys2Proof.Machine

theorem nullCheck_eq_nullPointer_iff (a : Word) : nullCheck a = some .nullPointer ↔ a = 0 := by simp [nullCheck]

/-- A running block halts with a cause exactly when that is what the command's checks give: an effect never halts. -/
theorem exec_eq_raiseFatal_iff {s : State} (hf : s.fatal = false) (i : Instr) (c : Cause) :
    exec i s = .next (s.raiseFatal c) ↔ checkOf i.command s = some c := by
  refine ⟨fun h => ?_, fun hc => by rw [exec_eq_runChecked, runChecked_fail hf hc]⟩
  obtain ⟨-, ⟨d, hd, heq⟩ | ⟨-, heq⟩⟩ := exec_cases h
  · have hcause : c = d := congrArg State.cause heq
    rw [hd, hcause]
  · have hhalt : true = (effectOf i.command s).fatal := congrArg State.fatal heq
    rw [(effectOf_frame i.command s).1, hf] at hhalt
    cases hhalt

theorem exec_completes {s : State} {i : Instr} (hf : s.fatal = false) (hc : checkOf i.command s = none) :
    ∃ t, exec i s = .next t ∧ t.fatal = false :=
  ⟨effectOf i.command s, by rw [exec_eq_runChecked, runChecked_pass hf hc],
    by rw [(effectOf_frame i.command s).1, hf]⟩

/-- Where the checks come down to the null check of one address, that address alone decides. -/
theorem exec_of_nullCheck {s : State} {i : Instr} {a : Word} (hf : s.fatal = false)
    (hc : checkOf i.command s = nullCheck a) :
    (exec i s = .next (s.raiseFatal .nullPointer) ↔ a = 0) ∧ (a ≠ 0 → ∃ t, exec i s = .next t ∧ t.fatal = false) := by
  rw [exec_eq_raiseFatal_iff hf, hc, nullCheck_eq_nullPointer_iff]
  exact ⟨Iff.rfl, fun ha => exec_completes hf (hc.trans ((nullCheck_eq_none a).mpr ha))⟩

/-- In the session a typed access needs, and with room for it, only the null check of the cursor is left. -/
theorem typedCheck_eq_nullCheck {need : Need} {t : Tag} {s : State} (hs : sessionCheck need s = none)
    (hcap : t.byteLen ≤ s.remaining) : typedCheck need t s = nullCheck s.cursor := by
  rw [typedCheck, hs, (capacityCheck_eq_none _ _).mpr hcap, Option.none_or, Option.none_or]

end Sys2Proof.Machine
end

section
/-!
The obligations of 40_codec.md on the null check and on the pure codec functions.
-/
open Sys2Proof Sys2Proof.Machine

/-- Settles O28: the checks of a codec command are the null check of A, those of READ and WRITE in their session and
with room are the null check of the cursor. -/
theorem codecChecksTheStartAddressAlone : Obligations.CodecChecksTheStartAddressAlone := by
  unfold Obligations.CodecChecksTheStartAddressAlone
  intro s i g hf
  refine ⟨fun ⟨e, hi⟩ => ?_, fun hi hcap => ?_⟩
  · have hc : checkOf i.command s = nullCheck s.operandA := by
      obtain hi | hi := hi <;> rw [hi] <;> rfl
    exact exec_of_nullCheck hf hc
  · have hc : checkOf i.command s = nullCheck s.cursor := by
      obtain ⟨hi, hs⟩ | ⟨hi, hs⟩ := hi <;> rw [hi] <;>
        exact typedCheck_eq_nullCheck (by simp [sessionCheck, hs]) hcap
    exact exec_of_nullCheck hf hc

/-- Settles O29: the union of the lanes is their sum, and the tag's spelling of it is unsigned or two's-complement. -/
theorem getValueIsTheAssembledNumber : Obligations.GetValueIsTheAssembledNumber := by
  unfold Obligations.GetValueIsTheAssembledNumber
  intro e g bs hlen
  have hpattern := toNat_assembled_mod e hlen
  refine ⟨hlen ▸ patternOf_lt e bs, fun hg => ?_, fun hg => ?_⟩
  · rw [decodeBytes, toNat_spell_of_unsigned hg, hpattern]
  · rw [decodeBytes, toInt_spell_of_signed hg, hpattern]

/-- Settles O30: the tags and codes of odd width by their table, and an unsigned spelling as a remainder. -/
theorem oddWidthsAreNeverSignExtended : Obligations.OddWidthsAreNeverSignExtended := by
  unfold Obligations.OddWidthsAreNeverSignExtended
  refine ⟨fun _ => byteLen_of_signed, tagOfCode_of_signed_odd, fun e g bs hodd _ => ?_⟩
  have hg := unsigned_of_odd_byteLen hodd
  have hlt : (decodeBytes e g bs).toNat < 2 ^ (8 * g.byteLen) := by
    rw [decodeBytes, toNat_spell_of_unsigned hg]
    exact Nat.mod_lt _ (Nat.two_pow_pos _)
  refine ⟨hg, hlt, fun n hn => ?_⟩
  rw [← BitVec.testBit_toNat]
  exact Nat.testBit_lt_two_pow (hlt.trans_le (Nat.pow_le_pow_right (by decide) hn))

/-- Settles O31: the bytes by lane, their sum by induction on their number, and the cut to the low 8L bits. -/
theorem putBytesAreTheLowBytes : Obligations.PutBytesAreTheLowBytes := by
  unfold Obligations.PutBytesAreTheLowBytes
  intro e g v
  exact ⟨length_encodeBytes e g v, fun _ => getElem?_encodeBytes e g v, patternOf_encodeBytes e g v,
    fun _ => encodeBytes_congr_mod e g⟩
end

section
/-!
The checks of a command at a running block: which of them is a session check (R196), and what their first violation
does to the state (R193, R195).
-/
namespace Sys2Proof.Machine

/-- The session a command asks for in a session check; none for the four commands that make no such check (R196). -/
def needOf : Command → Option Need
  | .cget _ _ => none
  | .cput _ _ => none
  | .openr _ => none
  | .openw _ => none
  | .read _ => some .reader
  | .readb => some .reader
  | .write _ => some .writer
  | .writeb => some .writer
  | .size => some .either
  | .pos => some .either
  | .seek => some .either

theorem sessionCheck_eq_ite (need : Need) (s : State) :
    sessionCheck need s =
      if s.session = .none then some .noSession
      else if need = .reader ∧ s.session ≠ .reader then some .wrongSession
      else if need = .writer ∧ s.session ≠ .writer then some .wrongSession
      else none := by
  unfold sessionCheck
  cases s.session <;> cases need <;> rfl

/-- A stream command makes its session check before any other. -/
theorem checkOf_eq_sessionCheck_or {c : Command} {need : Need} (h : needOf c = some need) (s : State) :
    ∃ rest, checkOf c s = (sessionCheck need s).or rest := by
  cases c with
  | cget | cput | openr | openw => cases h
  | read | write | readb | writeb | seek => cases h; exact ⟨_, rfl⟩
  | size | pos => cases h; exact ⟨none, Option.or_none.symm⟩

theorem checkOf_of_sessionCheck {c : Command} {need : Need} {s : State} {k : Cause}
    (h : needOf c = some need) (hk : sessionCheck need s = some k) : checkOf c s = some k := by
  obtain ⟨rest, hrest⟩ := checkOf_eq_sessionCheck_or h s
  rw [hrest, hk, Option.some_or]

theorem eq_nullPointer_of_nullCheck {a : Word} {k : Cause} (h : nullCheck a = some k) : k = .nullPointer := by
  unfold nullCheck at h
  split at h <;> cases h
  rfl

/-- Without a session check, only the operands are checked. -/
theorem eq_nullPointer_or_zeroSize_of_checkOf {c : Command} {s : State} {k : Cause}
    (h : needOf c = none) (hk : checkOf c s = some k) : k = .nullPointer ∨ k = .zeroSize := by
  cases c with
  | cget | cput => exact .inl (eq_nullPointer_of_nullCheck hk)
  | openr | openw =>
    obtain hnull | ⟨-, hzero⟩ := Option.or_eq_some_iff.mp hk
    · exact .inl (eq_nullPointer_of_nullCheck hnull)
    · split at hzero <;> cases hzero
      exact .inr rfl
  | read | write | readb | writeb | size | pos | seek => cases h

theorem exec_of_firstViolation {s : State} {i : Instr} {c : Cause} (hf : s.fatal = false)
    (hv : firstViolation i.command s = some c) : exec i s = .next (s.raiseFatal c) :=
  (exec_eq_raiseFatal_iff hf i c).mpr ((checkOf_eq_firstViolation i.command s).trans hv)

theorem exec_of_no_violation {s : State} {i : Instr} (hf : s.fatal = false)
    (hv : firstViolation i.command s = none) : exec i s = .next (effectOf i.command s) := by
  rw [exec_eq_runChecked, runChecked_pass hf ((checkOf_eq_firstViolation i.command s).trans hv)]

/-- The cause of a halt is what the command's checks gave. -/
theorem checkOf_of_exec_fatal {s t : State} {i : Instr} (h : exec i s = .next t) (ht : t.fatal = true) :
    checkOf i.command s = some t.cause := by
  obtain ⟨hf, ⟨c, hc, rfl⟩ | ⟨-, rfl⟩⟩ := exec_cases h
  · exact hc
  · rw [(effectOf_frame i.command s).1, hf] at ht
    cases ht

end Sys2Proof.Machine
end

section
/-!
The obligations of 60_exceptions.md on the checks of a command.
-/
open Sys2Proof Sys2Proof.Machine

/-- Settles O21: the fatal entry is the one state update of R193, for a command's checks and for its decoding. -/
theorem failedCheckWritesOnlyFatalAndCause : Obligations.FailedCheckWritesOnlyFatalAndCause := by
  unfold Obligations.FailedCheckWritesOnlyFatalAndCause
  exact ⟨fun _ _ _ => exec_of_firstViolation, fun _ _ _ => step_illegal⟩

/-- Settles O22: a stream command's check begins with its session check, and the check of the other four commands can
only give NULL_POINTER or ZERO_SIZE. -/
theorem sessionCheckOfStreamCommands : Obligations.SessionCheckOfStreamCommands := by
  unfold Obligations.SessionCheckOfStreamCommands
  refine ⟨fun s need => sessionCheck_eq_ite need s, fun s i need c hf hi hc => ?_, fun s t i hf h ht hi => ?_⟩
  · have hneed : needOf i.command = some need := by
      split at hi <;> cases hi <;> simp [needOf, *]
    exact (exec_eq_raiseFatal_iff hf i c).mpr (checkOf_of_sessionCheck hneed hc)
  · have hneed : needOf i.command = none := by
      split at hi <;> cases hi <;> simp [needOf, *]
    obtain hcause | hcause := eq_nullPointer_or_zeroSize_of_checkOf hneed (checkOf_of_exec_fatal h ht) <;>
      simp [hcause]

/-- Settles O23: with a violation the state is that of the fatal entry, without one that of the command's effect, which
leaves FATAL and CAUSE alone. -/
theorem firstViolationGivesTheCause : Obligations.FirstViolationGivesTheCause := by
  unfold Obligations.FirstViolationGivesTheCause
  refine ⟨fun s c r hf hp hd => ⟨_, step_illegal hf hp hd, rfl, rfl⟩, fun s i hf => ⟨fun c hv => ?_, fun hv => ?_⟩⟩
  · exact ⟨s.raiseFatal c, exec_of_firstViolation hf hv, rfl, rfl, rfl, rfl, rfl, rfl, rfl, rfl, rfl⟩
  · obtain ⟨hfatal, hcause, -⟩ := effectOf_frame i.command s
    exact ⟨effectOf i.command s, exec_of_no_violation hf hv, hfatal.trans hf, hcause⟩
end

section
/-!
Checks that pass or fail with a cause (R191), and what a command's effect does to each part of the state: the view, the
cursor and the memory (R30 to R32).
-/
namespace Sys2Proof.Machine

/-! ### Checks that pass -/

theorem exec_of_pass {s : State} {i : Instr} (hf : s.fatal = false) (hc : checkOf i.command s = none) :
    exec i s = .next (effectOf i.command s) := by
  rw [exec_eq_runChecked, runChecked_pass hf hc]

theorem session_ne_none_of_pass {c : Command} {need : Need} {s : State} (h : needOf c = some need)
    (hc : checkOf c s = none) : s.session ≠ .none := by
  obtain ⟨rest, hrest⟩ := checkOf_eq_sessionCheck_or h s
  rw [hrest, Option.or_eq_none_iff, sessionCheck_eq_none] at hc
  obtain ⟨⟨hs, -⟩, -⟩ := hc
  exact hs

@[simp] theorem openCheck_eq_none (s : State) : openCheck s = none ↔ s.operandA ≠ 0 ∧ s.operandB ≠ 0 := by
  simp [openCheck]

theorem seekCheck_eq_none (s : State) :
    seekCheck s = none ↔ s.session ≠ .none ∧ s.operandA.toNat ≤ s.size.toNat := by
  simp [seekCheck, sessionCheck_eq_none]

/-! ### Checks that fail -/

/-- The causes of a command's row in R191, the illegal word apart. -/
def causesOf : Command → List Cause
  | .cget _ _ => [.nullPointer]
  | .cput _ _ => [.nullPointer]
  | .openr _ => [.nullPointer, .zeroSize]
  | .openw _ => [.nullPointer, .zeroSize]
  | .read _ => [.noSession, .wrongSession, .nullPointer, .capacity]
  | .write _ => [.noSession, .wrongSession, .nullPointer, .capacity]
  | .readb => [.noSession, .wrongSession, .capacity]
  | .writeb => [.noSession, .wrongSession, .capacity]
  | .size => [.noSession]
  | .pos => [.noSession]
  | .seek => [.noSession, .seekRange]

theorem mem_causesOf_of_check {c : Command} {s : State} {v : Cause} (h : checkOf c s = some v) : v ∈ causesOf c := by
  have hviolations : ∀ p ∈ violations c s, p.2 ∈ causesOf c := by cases c <;> simp [violations, causesOf]
  rw [checkOf_eq_firstViolation, firstViolation] at h
  obtain ⟨p, hp, rfl⟩ := Option.map_eq_some_iff.mp h
  exact hviolations p (List.mem_of_find?_eq_some hp)

/-- A check that fails names a violation. -/
theorem checkOf_ne_some_none (c : Command) (s : State) : checkOf c s ≠ some .none := by
  intro h
  have hmem := mem_causesOf_of_check h
  cases c <;> simp [causesOf] at hmem

/-! ### The cursor -/

/-- By how many bytes a command advances the cursor; none for a command that makes no advance (R31). -/
def advanceOf : Command → State → Option Nat
  | .read t, _ => some t.byteLen
  | .write t, _ => some t.byteLen
  | .readb, s => some s.operandB.toNat
  | .writeb, s => some s.operandB.toNat
  | _, _ => none

theorem le_remaining_of_pass {c : Command} {n : Nat} {s : State} (h : advanceOf c s = some n)
    (hc : checkOf c s = none) : n ≤ s.remaining := by
  cases c with
  | cget | cput | openr | openw | size | pos | seek => cases h
  | read | write | readb | writeb =>
    cases h
    simp only [checkOf, typedCheck, bulkCheck, Option.or_eq_none_iff, capacityCheck_eq_none] at hc
    simp only [hc]

theorem effectOf_pos_of_advance {c : Command} {n : Nat} {s : State} (h : advanceOf c s = some n) :
    (effectOf c s).pos = s.pos + BitVec.ofNat 64 n := by
  cases c with
  | cget | cput | openr | openw | size | pos | seek => cases h
  | read t => cases h; simp [effectOf, readEffect_eq]
  | write t => cases h; rw [effectOf, (writeEffect_spec t s).2]
  | readb =>
    cases h
    obtain ⟨bs, -, -, -, heq⟩ := copyRespond_spec s s.cursor s.operandA
    rw [effectOf, readbEffect, heq, BitVec.ofNat_toNat, BitVec.setWidth_eq]
  | writeb =>
    cases h
    obtain ⟨bs, -, -, -, heq⟩ := copyRespond_spec s s.operandA s.cursor
    rw [effectOf, writebEffect, heq, BitVec.ofNat_toNat, BitVec.setWidth_eq]

/-- An advance that passes its check does not wrap (R185). -/
theorem toNat_pos_add {s : State} {n : Nat} (h : n ≤ s.remaining) :
    (s.pos + BitVec.ofNat 64 n).toNat = s.pos.toNat + n := by
  have hpos := s.pos.isLt
  have hsize := s.size.isLt
  rw [State.remaining] at h
  rw [BitVec.toNat_add, BitVec.toNat_ofNat]
  omega

theorem toNat_effectOf_pos_of_advance {c : Command} {n : Nat} {s : State} (h : advanceOf c s = some n)
    (hc : checkOf c s = none) : (effectOf c s).pos.toNat = s.pos.toNat + n := by
  rw [effectOf_pos_of_advance h, toNat_pos_add (le_remaining_of_pass h hc)]

/-- The commands that leave the cursor where it is (R31). -/
def keepsCursor : Command → Bool
  | .cget _ _ => true
  | .cput _ _ => true
  | .size => true
  | .pos => true
  | _ => false

theorem effectOf_pos_of_keepsCursor (c : Command) (s : State) (h : keepsCursor c = true) :
    (effectOf c s).pos = s.pos := by
  cases c with
  | openr | openw | read | write | readb | writeb | seek => cases h
  | cget t e => simp [effectOf, cgetEffect_eq]
  | cput t e => rw [effectOf, (cputEffect_spec t e s).2]
  | size | pos => rfl

/-! ### The view and the memory -/

/-- Whether a command opens a session: OPENR and OPENW (R140, R145). -/
def opensSession : Command → Bool
  | .openr _ => true
  | .openw _ => true
  | _ => false

/-- The view, its session and its byte order stay, unless the command opens a session (R32). -/
theorem effectOf_view (c : Command) (s : State) (h : opensSession c = false) :
    (effectOf c s).session = s.session ∧ (effectOf c s).base = s.base ∧ (effectOf c s).size = s.size ∧
      (effectOf c s).order = s.order := by
  cases c with
  | openr | openw => cases h
  | cget t e => simp [effectOf, cgetEffect_eq]
  | read t => simp [effectOf, readEffect_eq]
  | cput t e => rw [effectOf, (cputEffect_spec t e s).2]; simp
  | write t => rw [effectOf, (writeEffect_spec t s).2]; simp
  | readb =>
    obtain ⟨bs, -, -, -, heq⟩ := copyRespond_spec s s.cursor s.operandA
    rw [effectOf, readbEffect, heq]; simp
  | writeb =>
    obtain ⟨bs, -, -, -, heq⟩ := copyRespond_spec s s.operandA s.cursor
    rw [effectOf, writebEffect, heq]; simp
  | size | pos | seek => exact ⟨rfl, rfl, rfl, rfl⟩

theorem effectOf_wf {s : State} (c : Command) (hw : s.mem.wf = true) : (effectOf c s).mem.wf = true := by
  cases c with
  | cget t e => simpa [effectOf, cgetEffect_eq] using hw
  | read t => simpa [effectOf, readEffect_eq] using hw
  | cput | write => exact State.writeSlice_wf _ _ _ hw
  | readb | writeb => exact State.copySlice_wf _ _ _ _ hw
  | openr | openw | size | pos | seek => exact hw

end Sys2Proof.Machine
end

section
/-!
What a step can do, said once (R29, R71): the first accesses of an aborted command (R222), the inversion of `step`,
and induction over a run.
-/
namespace Sys2Proof.Machine

/-! ### An aborted command -/

/-- The first part of a bulk copy stores what a shorter copy stores: a last read without its write changes no byte. -/
theorem State.copyPrefix_mem (s : State) (k n : Nat) (src dst : Word) :
    (s.copyPrefix k n src dst).mem = (s.copySlice (min k (2 * n) / 2) src dst).mem := by
  unfold State.copyPrefix
  dsimp only
  split <;> rfl

theorem State.copySlice_frame (s : State) (n : Nat) (src dst : Word) (hn : n ≤ 2 ^ 64) :
    s.copySlice n src dst =
      { s with mem := (s.copySlice n src dst).mem, accesses := (s.copySlice n src dst).accesses } := by
  obtain ⟨bs, -, -, -, heq⟩ := s.copySlice_spec n src dst hn
  rw [heq]

theorem State.copyPrefix_frame (s : State) (k n : Nat) (src dst : Word) (hn : n ≤ 2 ^ 64) :
    s.copyPrefix k n src dst =
      { s with mem := (s.copyPrefix k n src dst).mem, accesses := (s.copyPrefix k n src dst).accesses } := by
  unfold State.copyPrefix
  dsimp only
  rw [s.copySlice_frame (min k (2 * n) / 2) src dst (by omega)]
  split <;> rfl

/-- The accesses of an aborted command touch nothing but the memory and the record of accesses. -/
theorem partialAccesses_frame (c : Command) (k : Nat) (s : State) :
    partialAccesses c k s =
      { s with mem := (partialAccesses c k s).mem, accesses := (partialAccesses c k s).accesses } := by
  cases c with
  | cget | read => simp [partialAccesses, State.readSlice_eq]
  | cput t e =>
    have hlen := Tag.byteLen_pos t
    rw [partialAccesses, (s.writeSlice_spec ((encodeBytes e t s.operandB).take k) s.operandA (by simp; omega)).2]
  | write t =>
    have hlen := Tag.byteLen_pos t
    rw [partialAccesses, (s.writeSlice_spec ((encodeBytes s.order t s.operandB).take k) s.cursor (by simp; omega)).2]
  | readb | writeb => exact s.copyPrefix_frame _ _ _ _ (by omega)
  | openr | openw | size | pos | seek => rfl

theorem partialAccesses_wf {s : State} (c : Command) (k : Nat) (hw : s.mem.wf = true) :
    (partialAccesses c k s).mem.wf = true := by
  cases c with
  | cget | read => simpa [partialAccesses, State.readSlice_eq] using hw
  | cput | write => exact State.writeSlice_wf _ _ _ hw
  | readb | writeb => rw [partialAccesses, State.copyPrefix_mem]; exact State.copySlice_wf _ _ _ _ hw
  | openr | openw | size | pos | seek => exact hw

/-- An abort makes no access, or the first ones of a command whose checks pass. -/
theorem abortedAfter_cases (c : Transfer) (k : Nat) (s : State) :
    abortedAfter c k s = s ∨
      ∃ i, decode c.word = .ok i ∧ checkOf i.command s = none ∧
        abortedAfter c k s = partialAccesses i.command k s := by
  unfold abortedAfter
  cases hd : decode c.word with
  | error r => simp only [true_or]
  | ok i => cases hc : checkOf i.command s <;> simp [hc]

theorem abortedAfter_wf {s : State} (c : Transfer) (k : Nat) (hw : s.mem.wf = true) :
    (abortedAfter c k s).mem.wf = true := by
  obtain h | ⟨i, -, -, h⟩ := abortedAfter_cases c k s <;> rw [h]
  · exact hw
  · exact partialAccesses_wf i.command k hw

theorem abortedAfter_frame (c : Transfer) (k : Nat) (s : State) :
    abortedAfter c k s =
      { s with mem := (abortedAfter c k s).mem, accesses := (abortedAfter c k s).accesses } := by
  obtain h | ⟨i, -, -, h⟩ := abortedAfter_cases c k s <;> rw [h]
  exact partialAccesses_frame i.command k s

/-- What an abort leaves: the memory after some of the command's accesses, and the block reset. -/
theorem State.abortCommand_eq (s : State) (c : Transfer) :
    s.abortCommand c =
      { s.resetBlock with
        mem := (abortedAfter c (Config.abortProgress s.index) s).mem
        accesses := (abortedAfter c (Config.abortProgress s.index) s).accesses
        index := s.index + 1
        unanswered := s.index :: s.unanswered } := by
  rw [State.abortCommand, abortedAfter_frame]
  rfl

/-! ### One step -/

/-- The next states of a step, by what the host does: a command completes, halts or is illegal; a reset between
commands, out of the halt or during a command; a store, the end of a buffer's life, or nothing (R29, R71, R206). -/
inductive StepTo (s : State) : State → Prop
  | idle (hf : s.fatal = false) (hp : s.program[s.index]? = none) : StepTo s s.accept
  | completes (c : Transfer) (i : Instr) (hf : s.fatal = false) (hp : s.program[s.index]? = some (.command c))
      (hd : decode c.word = .ok i) (hc : checkOf i.command s.accept = none) :
      StepTo s (effectOf i.command s.accept)
  | halts (c : Transfer) (i : Instr) (v : Cause) (hf : s.fatal = false)
      (hp : s.program[s.index]? = some (.command c)) (hd : decode c.word = .ok i)
      (hc : checkOf i.command s.accept = some v) : StepTo s (s.accept.raiseFatal v)
  | illegal (c : Transfer) (r : Illegal) (hf : s.fatal = false) (hp : s.program[s.index]? = some (.command c))
      (hd : decode c.word = .error r) : StepTo s (s.accept.raiseFatal .illegalCommand)
  | reset (hf : s.fatal = false) (hp : s.program[s.index]? = some .reset) : StepTo s s.accept.takeReset
  | resetHalt (hf : s.fatal = true) (hp : s.program[s.index + 1]? = some .reset) : StepTo s s.accept.takeReset
  | abort (c : Transfer) (hf : s.fatal = false) (hp : s.program[s.index]? = some (.abort c)) :
      StepTo s (s.accept.abortCommand c)
  | store (a : Word) (b : Byte) (hf : s.fatal = false) (hp : s.program[s.index]? = some (.store a b)) :
      StepTo s (s.accept.platformStore a b)
  | endBuffer (hf : s.fatal = false) (hp : s.program[s.index]? = some .endBuffer) (hs : s.session = .none) :
      StepTo s { s.accept with index := s.index + 1 }

/-- The inversion of `step`. -/
theorem stepTo_of_step {s t : State} (h : step s = .next t) : StepTo s t := by
  obtain ⟨hf, ⟨hp, hfetch⟩ | ⟨-, hfetch⟩⟩ | ⟨hf, ⟨hp, hfetch⟩ | ⟨c, hp, ⟨i, hd, hfetch⟩ | ⟨r, hd, hfetch⟩⟩ |
    ⟨hp, hfetch⟩ | ⟨c, hp, hfetch⟩ | ⟨a, b, hp, hfetch⟩ | ⟨hp, hfetch⟩⟩ := fetch_cases s <;>
    simp only [step, hfetch] at h
  · cases h; exact .resetHalt hf hp
  · cases h
  · cases h; exact .idle hf hp
  · obtain ⟨-, ⟨v, hc, rfl⟩ | ⟨hc, rfl⟩⟩ := exec_cases h
    · exact .halts c i v hf hp hd hc
    · exact .completes c i hf hp hd hc
  · cases h; exact .illegal c r hf hp hd
  · cases h; exact .reset hf hp
  · cases h; exact .abort c hf hp
  · cases h; exact .store a b hf hp
  · unfold State.endBufferLife at h
    split at h
    case isTrue hs => cases h; exact .endBuffer hf hp hs
    case isFalse => cases h

theorem index_lt_of_getElem? {s : State} {x : HostAction} (h : s.program[s.index]? = some x) :
    s.index < s.program.length := (List.getElem?_eq_some_iff.mp h).1

/-! ### Runs -/

theorem coreRun_succ_eq_next_iff {M : Host.Core} {k : Nat} {s t : M.State} :
    M.run (k + 1) s = .next t ↔ ∃ u, M.step s = .next u ∧ M.run k u = .next t := by
  rw [Host.Core.run]
  cases M.step s <;> simp

theorem run_succ_eq_next_iff {k : Nat} {s t : State} :
    core.run (k + 1) s = .next t ↔ ∃ u, step s = .next u ∧ core.run k u = .next t :=
  coreRun_succ_eq_next_iff (M := core)

/-- What every step keeps holds in every state of a run. -/
theorem run_keeps {P : State → Prop} (hstep : ∀ s t, P s → step s = .next t → P t) {k : Nat} {s t : State}
    (hs : P s) (h : core.run k s = .next t) : P t := by
  induction k generalizing s with
  | zero => cases h; exact hs
  | succ k ih =>
    obtain ⟨u, hu, hrun⟩ := run_succ_eq_next_iff.mp h
    exact ih (hstep s u hs hu) hrun

end Sys2Proof.Machine
end

section
/-!
The invariant is kept by every step (10_state.md section 4).
-/
namespace Sys2Proof.Machine

/-- A completing command leaves the cursor inside a non-null, non-empty view (R30). -/
theorem effectOf_view_inv {c : Command} {s : State} (hc : checkOf c s = none)
    (hs : s.session ≠ .none → s.base ≠ 0 ∧ s.size ≠ 0 ∧ s.pos.toNat ≤ s.size.toNat)
    (hopen : (effectOf c s).session ≠ .none) :
    (effectOf c s).base ≠ 0 ∧ (effectOf c s).size ≠ 0 ∧ (effectOf c s).pos.toNat ≤ (effectOf c s).size.toNat := by
  have hview := effectOf_view c s
  have hpos := effectOf_pos_of_keepsCursor c s
  cases c with
  | openr e | openw e =>
    obtain ⟨hA, hB⟩ := (openCheck_eq_none s).mp hc
    exact ⟨hA, hB, Nat.zero_le _⟩
  | seek =>
    obtain ⟨hsession, hA⟩ := (seekCheck_eq_none s).mp hc
    obtain ⟨hbase, hsize, -⟩ := hs hsession
    exact ⟨hbase, hsize, hA⟩
  | read | write | readb | writeb =>
    obtain ⟨hsession, hbase, hsize, -⟩ := hview rfl
    rw [hsession] at hopen
    obtain ⟨hbase', hsize', hle⟩ := hs hopen
    have hroom := le_remaining_of_pass rfl hc
    rw [State.remaining] at hroom
    rw [hbase, hsize, toNat_effectOf_pos_of_advance rfl hc]
    exact ⟨hbase', hsize', by omega⟩
  | cget | cput | size | pos =>
    obtain ⟨hsession, hbase, hsize, -⟩ := hview rfl
    rw [hsession] at hopen
    rw [hbase, hsize, hpos rfl]
    exact hs hopen

/-- With no session open, a completing command that opens none is a codec command, which keeps the registers (R36). -/
theorem effectOf_closed_inv {c : Command} {s : State} (hc : checkOf c s = none)
    (hs : s.session = .none → s.order = .le ∧ s.base = 0 ∧ s.size = 0 ∧ s.pos = 0)
    (hclosed : (effectOf c s).session = .none) :
    (effectOf c s).order = .le ∧ (effectOf c s).base = 0 ∧ (effectOf c s).size = 0 ∧ (effectOf c s).pos = 0 := by
  have hview := effectOf_view c s
  have hpos := effectOf_pos_of_keepsCursor c s
  cases c with
  | openr | openw => cases hclosed
  | read | write | readb | writeb | size | pos | seek =>
    obtain ⟨hsession, -⟩ := hview rfl
    exact absurd (hsession.symm.trans hclosed) (session_ne_none_of_pass rfl hc)
  | cget | cput =>
    obtain ⟨hsession, hbase, hsize, horder⟩ := hview rfl
    rw [horder, hbase, hsize, hpos rfl]
    exact hs (hsession.symm.trans hclosed)

theorem effectOf_inv {c : Command} {s : State} (hinv : s.Inv) (hf : s.fatal = false)
    (hidx : s.index < s.program.length) (hc : checkOf c s = none) : (effectOf c s).Inv := by
  obtain ⟨hview, hclosed, hcause, hwf, -, -⟩ := hinv
  obtain ⟨hfatal', hcause', hprogram', -, hindex', -⟩ := effectOf_frame c s
  refine ⟨effectOf_view_inv hc hview, effectOf_closed_inv hc hclosed, ?_, effectOf_wf c hwf, ?_, ?_⟩
  · rw [hfatal', hcause']; exact hcause
  · rw [hindex', hprogram']; exact hidx
  · rw [hfatal', hf]; rintro ⟨⟩

theorem State.accept_inv {s : State} (hinv : s.Inv) : s.accept.Inv := by
  obtain ⟨hview, hclosed, hcause, hwf, hindex, hhalt⟩ := hinv
  exact ⟨hview, hclosed, hcause, hwf, hindex, fun hf => ⟨(hhalt hf).1, rfl, rfl⟩⟩

theorem State.raiseFatal_inv {s : State} {v : Cause} (hinv : s.Inv) (hv : v ≠ .none)
    (hidx : s.index < s.program.length) (hacc : s.accesses = []) : (s.raiseFatal v).Inv := by
  obtain ⟨hview, hclosed, -, hwf, hindex, -⟩ := hinv
  exact ⟨hview, hclosed, by simp [hv], hwf, hindex, fun _ => ⟨hidx, rfl, hacc⟩⟩

/-- The invariant after a reset needs only the memory and the index. -/
theorem State.inv_of_registersReset {s : State} (hreg : s.RegistersReset) (hwf : s.mem.wf = true)
    (hindex : s.index ≤ s.program.length) : s.Inv := by
  obtain ⟨hsession, horder, hbase, hsize, hpos, hfatal, hcause⟩ := hreg
  exact ⟨fun h => absurd hsession h, fun _ => ⟨horder, hbase, hsize, hpos⟩, by simp [hfatal, hcause], hwf, hindex,
    by simp [hfatal]⟩

theorem step_keeps_inv {s t : State} (hinv : s.Inv) (h : step s = .next t) : t.Inv := by
  have haccept := State.accept_inv hinv
  obtain ⟨hview, hclosed, hcause, hwf, hindex, hhalt⟩ := hinv
  cases stepTo_of_step h with
  | idle => exact haccept
  | completes c i hf hp hd hc => exact effectOf_inv haccept hf (index_lt_of_getElem? hp) hc
  | halts c i v hf hp hd hc =>
    have hv : v ≠ .none := fun hnone => checkOf_ne_some_none i.command s.accept (hnone ▸ hc)
    exact State.raiseFatal_inv haccept hv (index_lt_of_getElem? hp) rfl
  | illegal c r hf hp hd => exact State.raiseFatal_inv haccept (by decide) (index_lt_of_getElem? hp) rfl
  | reset hf hp =>
    have hidx : s.index + 1 ≤ s.program.length := index_lt_of_getElem? hp
    exact State.inv_of_registersReset ⟨rfl, rfl, rfl, rfl, rfl, rfl, rfl⟩ hwf (by simpa [hf] using hidx)
  | resetHalt hf hp =>
    have hidx : s.index + 2 ≤ s.program.length := (List.getElem?_eq_some_iff.mp hp).1
    exact State.inv_of_registersReset ⟨rfl, rfl, rfl, rfl, rfl, rfl, rfl⟩ hwf (by simpa [hf] using hidx)
  | abort c hf hp =>
    rw [State.abortCommand_eq]
    exact State.inv_of_registersReset ⟨rfl, rfl, rfl, rfl, rfl, rfl, rfl⟩ (abortedAfter_wf c _ hwf)
      (index_lt_of_getElem? hp)
  | store a b hf hp =>
    exact ⟨hview, hclosed, hcause, Memory.wf_write a b hwf, index_lt_of_getElem? hp, by simp [hf]⟩
  | endBuffer hf hp hs => exact ⟨hview, hclosed, hcause, hwf, index_lt_of_getElem? hp, by simp [hf]⟩

end Sys2Proof.Machine
end

section
/-!
The obligations of tier 3: the encoding both ways, and the invariant.
-/
open Sys2Proof Sys2Proof.Machine

/-- Settles O3: the decoder inverts the encoder, and reads no word but the encoder's. -/
theorem decodeAndEncodeAgree : Obligations.DecodeAndEncodeAgree := by
  unfold Obligations.DecodeAndEncodeAgree
  refine ⟨fun i => ⟨?_, decode_encode i⟩, fun _ _ => encode_of_decode⟩
  exact (exists_decode_eq_ok_iff_legal (encode i)).mp ⟨i, decode_encode i⟩

/-- Settles O16, by the cases of a step. -/
theorem stepKeepsTheInvariant : Obligations.StepKeepsTheInvariant := by
  unfold Obligations.StepKeepsTheInvariant
  exact fun _ _ => step_keeps_inv
end

section
/-!
A step for each action of the host, and what an aborted command leaves in the memory (R71, R220 to R222).
-/
namespace Sys2Proof.Machine

/-! ### The step for each action -/

section
variable {s : State} (hf : s.fatal = false)
include hf

theorem step_idle (hp : s.program[s.index]? = none) : step s = .next s.accept := by
  simp [step, State.fetch, hf, hp]

theorem step_command {c : Transfer} {i : Instr} (hp : s.program[s.index]? = some (.command c))
    (hd : decode c.word = .ok i) : step s = exec i s.accept := by
  simp [step, State.fetch, hf, hp, hd]

theorem step_reset (hp : s.program[s.index]? = some .reset) : step s = .next s.accept.takeReset := by
  simp [step, State.fetch, hf, hp]

theorem step_abort {c : Transfer} (hp : s.program[s.index]? = some (.abort c)) :
    step s = .next (s.accept.abortCommand c) := by
  simp [step, State.fetch, hf, hp]

theorem step_store {a : Word} {b : Byte} (hp : s.program[s.index]? = some (.store a b)) :
    step s = .next (s.accept.platformStore a b) := by
  simp [step, State.fetch, hf, hp]

theorem step_endBuffer (hp : s.program[s.index]? = some .endBuffer) : step s = s.accept.endBufferLife := by
  simp [step, State.fetch, hf, hp]

end

theorem step_resetHalt {s : State} (hf : s.fatal = true) (hp : s.program[s.index + 1]? = some .reset) :
    step s = .next s.accept.takeReset := by
  simp [step, State.fetch, hf, hp]

theorem step_halted {s : State} (hf : s.fatal = true) (hp : s.program[s.index + 1]? ≠ some .reset) :
    step s = .fault .halted := by
  obtain ⟨-, ⟨hreset, -⟩ | ⟨-, hfetch⟩⟩ | ⟨hrunning, -⟩ := fetch_cases s
  · exact absurd hreset hp
  · simp [step, hfetch]
  · rw [hf] at hrunning; cases hrunning

theorem exec_halted {s : State} (i : Instr) (hf : s.fatal = true) : exec i s = .fault .halted := by
  rw [exec_eq_runChecked, runChecked_halted hf]

theorem accept_operands_of_command {s : State} {c : Transfer} (hp : s.program[s.index]? = some (.command c)) :
    s.accept.operandA = c.a ∧ s.accept.operandB = c.b :=
  operands_of_command (s := s.accept) hp

theorem operands_of_abort {s : State} {c : Transfer} (hp : s.program[s.index]? = some (.abort c)) :
    s.operandA = c.a ∧ s.operandB = c.b := by
  simp [State.operandA, State.operandB, State.transfer, hp]

theorem eq_instr_of_command {i : Instr} {c : Command} (h : i.command = c) : i = c.instr := by
  rw [← h, instr_command]

/-! ### Resets -/

theorem takeReset_registersReset (s : State) : s.takeReset.RegistersReset := ⟨rfl, rfl, rfl, rfl, rfl, rfl, rfl⟩

theorem abortCommand_registersReset (s : State) (c : Transfer) : (s.abortCommand c).RegistersReset :=
  ⟨rfl, rfl, rfl, rfl, rfl, rfl, rfl⟩

/-- However a reset comes, the step is taken and resets the block (R220). -/
theorem exists_step_of_resetComes {s : State} (h : s.ResetComes) :
    ∃ t, step s = .next t ∧ t.RegistersReset ∧ t.rsp = none := by
  obtain ⟨hf, hp⟩ | ⟨hf, hp⟩ | ⟨hf, c, hp⟩ := h
  · exact ⟨_, step_reset hf hp, takeReset_registersReset _, rfl⟩
  · exact ⟨_, step_resetHalt hf hp, takeReset_registersReset _, rfl⟩
  · exact ⟨_, step_abort hf hp, abortCommand_registersReset _ c, rfl⟩

/-! ### The memory after an abort (R222) -/

theorem abortedAfter_of_pass {s : State} {c : Transfer} {i : Instr} (k : Nat) (hd : decode c.word = .ok i)
    (hc : checkOf i.command s = none) : abortedAfter c k s = partialAccesses i.command k s := by
  simp [abortedAfter, hd, hc]

theorem abortedAfter_of_fail {s : State} {c : Transfer} {i : Instr} {v : Cause} (k : Nat)
    (hd : decode c.word = .ok i) (hc : checkOf i.command s = some v) : abortedAfter c k s = s := by
  simp [abortedAfter, hd, hc]

theorem abortedAfter_of_illegal {s : State} {c : Transfer} {r : Illegal} (k : Nat)
    (hd : decode c.word = .error r) : abortedAfter c k s = s := by
  simp [abortedAfter, hd]

/-- Whether a command writes memory: CPUT, WRITE and the bulk copies (R52). -/
def writesMemory : Command → Bool
  | .cput _ _ => true
  | .write _ => true
  | .readb => true
  | .writeb => true
  | _ => false

theorem partialAccesses_mem_of_not_writes (c : Command) (k : Nat) (s : State) (h : writesMemory c = false) :
    (partialAccesses c k s).mem = s.mem := by
  cases c with
  | cput | write | readb | writeb => cases h
  | cget | read => simp [partialAccesses, State.readSlice_eq]
  | openr | openw | size | pos | seek => rfl

theorem abortedAfter_mem_of_not_writes {s : State} {c : Transfer} {i : Instr} (k : Nat)
    (hd : decode c.word = .ok i) (h : writesMemory i.command = false) : (abortedAfter c k s).mem = s.mem := by
  cases hc : checkOf i.command s with
  | some v => rw [abortedAfter_of_fail k hd hc]
  | none => rw [abortedAfter_of_pass k hd hc, partialAccesses_mem_of_not_writes _ _ _ h]

/-- A put cut short stores its first bytes. -/
theorem writeSlice_take_stores (s : State) (e : ByteOrder) (g : Tag) (v a : Word) (k : Nat) :
    ∃ j ≤ g.byteLen,
      StoresExactly s.mem (s.writeSlice ((encodeBytes e g v).take k) a).mem a ((encodeBytes e g v).take j) := by
  have hlen := Tag.byteLen_pos g
  have hstores := (s.writeSlice_spec ((encodeBytes e g v).take k) a (by simp; omega)).1
  refine ⟨min k g.byteLen, Nat.min_le_right _ _, ?_⟩
  rwa [← length_encodeBytes e g v, ← List.take_eq_take_min]

/-- A bulk copy cut short stores the first of the bytes it copies. -/
theorem copyPrefix_stores (s : State) (k n : Nat) (src dst : Word) (hn : n ≤ 2 ^ 64) :
    ∃ bs : List Byte, bs.length ≤ n ∧ CopiedBytes s src dst bs ∧
      StoresExactly s.mem (s.copyPrefix k n src dst).mem dst bs := by
  obtain ⟨bs, hlen, hcopied, hstores, -⟩ := s.copySlice_spec (min k (2 * n) / 2) src dst (by omega)
  exact ⟨bs, by omega, hcopied, by rwa [State.copyPrefix_mem]⟩

end Sys2Proof.Machine
end

section
/-!
The obligations on single steps, on resets and on aborted commands.
-/
open Sys2Proof Sys2Proof.Machine

/-- Settles O7: the fetch finds the decoded command. -/
theorem stepRunsTheDecodedCommand : Obligations.StepRunsTheDecodedCommand := by
  unfold Obligations.StepRunsTheDecodedCommand
  intro s c i hf hp hd
  exact ⟨step_command hf hp hd, rfl, accept_operands_of_command hp⟩

/-- Settles O8: of the cases of a step, only a store and the end of a buffer's life are left. -/
theorem idleBlockKeepsItsState : Obligations.IdleBlockKeepsItsState := by
  unfold Obligations.IdleBlockKeepsItsState
  refine ⟨fun s => step_idle, fun s t h hf hcommand habort hreset => ?_⟩
  cases stepTo_of_step h with
  | idle | store | endBuffer => exact ⟨rfl, rfl, rfl, rfl, rfl, rfl, rfl⟩
  | completes c _ _ hp | halts c _ _ _ hp | illegal c _ _ hp => exact absurd hp (hcommand c)
  | reset _ hp => exact absurd hp hreset
  | resetHalt hfatal => rw [hf] at hfatal; cases hfatal
  | abort c _ hp => exact absurd hp (habort c)

/-- Settles O9: in the halt the fetch finds the reset or nothing. -/
theorem haltedBlockHasNoStepButReset : Obligations.HaltedBlockHasNoStepButReset := by
  unfold Obligations.HaltedBlockHasNoStepButReset
  intro s hf
  refine ⟨by simp [State.cmdReady, hf], fun i => exec_halted i hf, step_halted hf, fun hp => ?_⟩
  exact ⟨_, step_resetHalt hf hp, takeReset_registersReset _, rfl⟩

/-- Settles O10, for each of the three places of a reset. -/
theorem resetClearsEveryRegister : Obligations.ResetClearsEveryRegister := by
  unfold Obligations.ResetClearsEveryRegister
  intro s h
  obtain ⟨t, hstep, hreg, hrsp⟩ := exists_step_of_resetComes h
  have hfatal : t.fatal = false := by obtain ⟨-, -, -, -, -, hfatal, -⟩ := hreg; exact hfatal
  exact ⟨t, hstep, hreg, hrsp, by simp [State.cmdReady, hfatal]⟩

/-- Settles O11: the step is the reset of the block, which has no memory update. -/
theorem resetLeavesTheMemory : Obligations.ResetLeavesTheMemory := by
  unfold Obligations.ResetLeavesTheMemory
  refine ⟨fun s t hreset h => ?_, fun m a => Memory.read_unwritten⟩
  have hstep : step s = .next s.accept.takeReset := by
    obtain ⟨hf, hp⟩ | ⟨hf, hp⟩ := hreset
    · exact step_reset hf hp
    · exact step_resetHalt hf hp
  rw [hstep] at h
  cases h
  exact ⟨fun _ => rfl, rfl⟩

/-- Settles O12: the memory is that after the first of the command's accesses, and everything else is reset. -/
theorem abortedCommandLeavesAPrefixOfItsWrites : Obligations.AbortedCommandLeavesAPrefixOfItsWrites := by
  unfold Obligations.AbortedCommandLeavesAPrefixOfItsWrites
  intro s c hf hp
  obtain ⟨hA, hB⟩ := operands_of_abort (s := s.accept) hp
  refine ⟨_, step_abort hf hp, abortCommand_registersReset _ c, rfl, ?_⟩
  rw [State.abortCommand_eq]
  generalize Config.abortProgress s.accept.index = k
  refine ⟨fun i g e hd hi hnull => ?_, fun i g hd hi hs hcap hnull => ?_, fun hd hs hcap => ?_, fun hd hs hcap => ?_,
    fun i hd hcput hwrite hreadb hwriteb => ?_, fun i v hd hv => ?_, fun r hd => ?_⟩ <;> dsimp only
  · have hc : checkOf i.command s.accept = none := by
      rw [hi]; exact (nullCheck_eq_none _).mpr (hA ▸ hnull)
    rw [abortedAfter_of_pass k hd hc, hi, ← hA, ← hB]
    exact writeSlice_take_stores s.accept e g _ _ k
  · have hc : checkOf i.command s.accept = none := by
      rw [hi]
      exact (typedCheck_eq_nullCheck (by simp [sessionCheck, hs]) hcap).trans ((nullCheck_eq_none _).mpr hnull)
    rw [abortedAfter_of_pass k hd hc, hi, ← hB]
    exact writeSlice_take_stores s.accept s.order g _ _ k
  · have hc : checkOf Instr.readb.command s.accept = none := by
      simp [Instr.command, checkOf, bulkCheck, sessionCheck, hs, hB, State.remaining, hcap]
    rw [abortedAfter_of_pass k hd hc, ← hA, ← hB]
    exact copyPrefix_stores s.accept k _ _ _ (by omega)
  · have hc : checkOf Instr.writeb.command s.accept = none := by
      simp [Instr.command, checkOf, bulkCheck, sessionCheck, hs, hB, State.remaining, hcap]
    rw [abortedAfter_of_pass k hd hc, ← hA, ← hB]
    exact copyPrefix_stores s.accept k _ _ _ (by omega)
  · refine abortedAfter_mem_of_not_writes k hd ?_
    cases hi : i.command with
    | cput g e => exact absurd hi (hcput g e)
    | write g => exact absurd hi (hwrite g)
    | readb => exact absurd (eq_instr_of_command hi) hreadb
    | writeb => exact absurd (eq_instr_of_command hi) hwriteb
    | cget | openr | openw | read | size | pos | seek => rfl
  · rw [abortedAfter_of_fail k hd ((checkOf_eq_firstViolation i.command s.accept).trans hv)]
    rfl
  · rw [abortedAfter_of_illegal k hd]
    rfl

/-- Settles O13: the fields of the reset state as they are written. -/
theorem resetStateValues : Obligations.ResetStateValues := by
  unfold Obligations.ResetStateValues
  exact ⟨⟨rfl, rfl, rfl, rfl, rfl, rfl, rfl⟩, rfl, rfl, rfl, rfl, rfl, rfl, rfl⟩

/-- Settles O14: every other command has a session check, which fails first; a codec command checks only A. -/
theorem afterResetStreamCommandsHaveNoSession : Obligations.AfterResetStreamCommandsHaveNoSession := by
  unfold Obligations.AfterResetStreamCommandsHaveNoSession
  rintro s i ⟨hsession, -, -, -, -, hf, -⟩
  refine ⟨fun hopenr hopenw hcget hcput => ?_, fun ⟨g, e, hi⟩ hA => ?_⟩
  · obtain ⟨need, hneed⟩ : ∃ need, needOf i.command = some need := by
      cases hi : i.command with
      | cget g e => exact absurd hi (hcget g e)
      | cput g e => exact absurd hi (hcput g e)
      | openr e => exact absurd (eq_instr_of_command hi) (hopenr e)
      | openw e => exact absurd (eq_instr_of_command hi) (hopenw e)
      | read | write | readb | writeb | size | pos | seek => exact ⟨_, rfl⟩
    have hcheck : sessionCheck need s = some .noSession := by simp [sessionCheck_eq_ite, hsession]
    exact (exec_eq_raiseFatal_iff hf i _).mpr (checkOf_of_sessionCheck hneed hcheck)
  · have hc : checkOf i.command s = none := by
      obtain hi | hi := hi <;> rw [hi] <;> exact (nullCheck_eq_none _).mpr hA
    obtain ⟨hfatal, -, -, -, -, hrsp⟩ := effectOf_frame i.command s
    exact ⟨_, exec_of_pass hf hc, hfatal.trans hf, hrsp⟩

/-- Settles O15: with no session, no halt and an empty memory there is nothing to show. -/
theorem resetMeetsTheInvariant : Obligations.ResetMeetsTheInvariant := by
  unfold Obligations.ResetMeetsTheInvariant
  exact State.inv_of_registersReset ⟨rfl, rfl, rfl, rfl, rfl, rfl, rfl⟩ rfl le_rfl

/-- Settles O59: the two branches of the end of a buffer's life. -/
theorem freedBufferIsUnsaid : Obligations.FreedBufferIsUnsaid := by
  unfold Obligations.FreedBufferIsUnsaid
  intro s hf hp
  rw [step_endBuffer hf hp, State.endBufferLife]
  exact ⟨fun hs => if_neg hs, fun hs => if_pos hs⟩
end

section
/-!
The obligations on runs and on what a step may change (10_state.md section 4, 60_exceptions.md).
-/
open Sys2Proof Sys2Proof.Machine

/-- Settles O17: the invariant along a run. -/
theorem cursorStaysInItsView : Obligations.CursorStaysInItsView := by
  unfold Obligations.CursorStaysInItsView
  intro k s t hinv h
  obtain ⟨hview, -⟩ := run_keeps (P := State.Inv) (fun _ _ => step_keeps_inv) hinv h
  exact hview

/-- Settles O18: of the cases of a step, a completing command moves the cursor by its own rule, a reset clears it. -/
theorem positionChangesOnlyAsStated : Obligations.PositionChangesOnlyAsStated := by
  unfold Obligations.PositionChangesOnlyAsStated
  intro s t _ h hne
  cases stepTo_of_step h with
  | idle | halts | illegal | store | endBuffer => exact absurd rfl hne
  | reset hf hp => exact .inr ⟨.inl ⟨hf, hp⟩, rfl, takeReset_registersReset _⟩
  | resetHalt hf hp => exact .inr ⟨.inr (.inl ⟨hf, hp⟩), rfl, takeReset_registersReset _⟩
  | abort c hf hp => exact .inr ⟨.inr (.inr ⟨hf, c, hp⟩), rfl, abortCommand_registersReset _ c⟩
  | completes c i hf hp hd hc =>
    refine .inl ⟨c, i, hp, hd, ?_⟩
    obtain ⟨hA, hB⟩ := accept_operands_of_command hp
    generalize i.command = cmd at hc hne
    have hstay := effectOf_pos_of_keepsCursor cmd s.accept
    cases cmd with
    | cget | cput | size | pos => exact absurd (hstay rfl) hne
    | openr | openw => rfl
    | read | write => exact toNat_effectOf_pos_of_advance rfl hc
    | readb | writeb => rw [← hB]; exact toNat_effectOf_pos_of_advance rfl hc
    | seek =>
      obtain ⟨-, hle⟩ := (seekCheck_eq_none _).mp hc
      exact ⟨hA, hA ▸ hle⟩

/-- Settles O19: of the cases of a step, a completing OPENR or OPENW and a reset are the ones that write the view. -/
theorem viewChangesOnlyByOpenOrReset : Obligations.ViewChangesOnlyByOpenOrReset := by
  unfold Obligations.ViewChangesOnlyByOpenOrReset
  intro s t h
  cases stepTo_of_step h with
  | idle | halts | illegal | store | endBuffer => exact .inl ⟨rfl, rfl, rfl, rfl⟩
  | reset hf hp => exact .inr (.inl ⟨.inl ⟨hf, hp⟩, takeReset_registersReset _⟩)
  | resetHalt hf hp => exact .inr (.inl ⟨.inr (.inl ⟨hf, hp⟩), takeReset_registersReset _⟩)
  | abort c hf hp => exact .inr (.inl ⟨.inr (.inr ⟨hf, c, hp⟩), abortCommand_registersReset _ c⟩)
  | completes c i hf hp hd hc =>
    have hview := effectOf_view i.command s.accept
    cases hi : i.command with
    | openr e => exact .inr (.inr ⟨c, i, e, hp, hd, .inl (eq_instr_of_command hi)⟩)
    | openw e => exact .inr (.inr ⟨c, i, e, hp, hd, .inr (eq_instr_of_command hi)⟩)
    | cget | cput | read | write | readb | writeb | size | pos | seek =>
      rw [hi] at hview
      exact .inl (hview rfl)

/-- Settles O20: of the cases of a step, only a failing check and an illegal word set FATAL, both by the one update. -/
theorem fatalEntryIsPrecise : Obligations.FatalEntryIsPrecise := by
  unfold Obligations.FatalEntryIsPrecise
  intro s t h ht
  cases stepTo_of_step h with
  | halts c i v hf hp hd hc =>
    exact ⟨hf, fun (hnone : v = .none) => checkOf_ne_some_none i.command s.accept (hnone ▸ hc), rfl⟩
  | illegal c r hf hp hd => exact ⟨hf, by simp, rfl⟩
  | completes c i hf hp hd hc =>
    have hrunning : (effectOf i.command s.accept).fatal = false := (effectOf_frame i.command s.accept).1.trans hf
    rw [hrunning] at ht
    cases ht
  | idle hf | store _ _ hf | endBuffer hf => exact absurd (hf.symm.trans ht) Bool.false_ne_true
  | reset | resetHalt | abort => cases ht

/-- Settles O24: the tables of codes, and CAUSE under the invariant. -/
theorem causeAndSessionCodes : Obligations.CauseAndSessionCodes := by
  unfold Obligations.CauseAndSessionCodes
  refine ⟨fun s => ?_, fun k => by cases k <;> rfl, fun s ⟨_, _, hcause, _⟩ => ?_⟩
  · unfold State.causeOut
    cases s.cause <;> rfl
  · have hcode : s.causeOut = 0 ↔ s.cause = .none := by
      unfold State.causeOut
      cases s.cause <;> decide
    have hfatal : s.fatalOut = 0 ↔ s.fatal = false := by
      unfold State.fatalOut
      cases s.fatal <;> decide
    rw [hcode, hfatal, hcause]
end

section
/-!
The assembler by the commands it can name (R90): the line of a command, and that a line which assembles, or has its
parts, is one.
-/
namespace Sys2Proof.Machine

theorem asmUnsigned_eq_some_iff {x : Int} {w : Word} :
    asmUnsigned x = some w ↔ operandFrom 0 (some x) = true ∧ w = BitVec.ofInt 64 x := by
  rw [asmUnsigned, Option.ite_none_right_eq_some, operandFrom, Option.any_some, decide_eq_true_eq,
    Option.some_inj, eq_comm (a := w)]

theorem asmValue_eq_some_iff {x : Int} {w : Word} :
    asmValue x = some w ↔ operandFrom (-2 ^ 63) (some x) = true ∧ w = BitVec.ofInt 64 x := by
  rw [asmValue, Option.ite_none_right_eq_some, operandFrom, Option.any_some, decide_eq_true_eq,
    Option.some_inj, eq_comm (a := w)]

theorem asmCommand_eq_some_iff {c : Command} {a b : Option Word} {t : Transfer} :
    asmCommand c a b = some t ↔ ∃ x y, a = some x ∧ b = some y ∧ t = { word := c.word, a := x, b := y } := by
  cases a <;> cases b <;> simp [asmCommand, eq_comm]

/-- The line that names a command, with the numbers to write for the operands the command takes (R90). -/
def lineOf (a b : Int) : Command → AsmLine
  | .cget t e => ⟨.cget, some e, some t, some a, none⟩
  | .cput t e => ⟨.cput, some e, some t, some a, some b⟩
  | .openr e => ⟨.openr, some e, none, some a, some b⟩
  | .openw e => ⟨.openw, some e, none, some a, some b⟩
  | .read t => ⟨.read, none, some t, none, none⟩
  | .write t => ⟨.write, none, some t, none, some b⟩
  | .readb => ⟨.readb, none, none, some a, some b⟩
  | .writeb => ⟨.writeb, none, none, some a, some b⟩
  | .size => ⟨.size, none, none, none, none⟩
  | .pos => ⟨.pos, none, none, none, none⟩
  | .seek => ⟨.seek, none, none, some a, none⟩

/-- The word an operand is driven as: 0 where the line writes none (R79). -/
def operandWord (o : Option Int) : Word := (o.map (BitVec.ofInt 64)).getD 0

theorem exists_lineOf_of_hasItsParts {l : AsmLine} (h : l.hasItsParts = true) : ∃ c a b, l = lineOf a b c := by
  obtain ⟨m, suffix, tag, a, b⟩ := l
  cases m <;>
    simp only [AsmLine.hasItsParts, operandFrom, Bool.and_eq_true, Option.isSome_iff_exists, Option.isNone_iff_eq_none,
      Option.any_eq_true] at h
  case cget =>
    obtain ⟨⟨⟨⟨e, rfl⟩, t, rfl⟩, x, rfl, -⟩, rfl⟩ := h
    exact ⟨.cget t e, x, 0, rfl⟩
  case cput =>
    obtain ⟨⟨⟨⟨e, rfl⟩, t, rfl⟩, x, rfl, -⟩, y, rfl, -⟩ := h
    exact ⟨.cput t e, x, y, rfl⟩
  case openr =>
    obtain ⟨⟨⟨⟨e, rfl⟩, rfl⟩, x, rfl, -⟩, y, rfl, -⟩ := h
    exact ⟨.openr e, x, y, rfl⟩
  case openw =>
    obtain ⟨⟨⟨⟨e, rfl⟩, rfl⟩, x, rfl, -⟩, y, rfl, -⟩ := h
    exact ⟨.openw e, x, y, rfl⟩
  case read =>
    obtain ⟨⟨⟨rfl, t, rfl⟩, rfl⟩, rfl⟩ := h
    exact ⟨.read t, 0, 0, rfl⟩
  case write =>
    obtain ⟨⟨⟨rfl, t, rfl⟩, rfl⟩, y, rfl, -⟩ := h
    exact ⟨.write t, 0, y, rfl⟩
  case readb =>
    obtain ⟨⟨⟨rfl, rfl⟩, x, rfl, -⟩, y, rfl, -⟩ := h
    exact ⟨.readb, x, y, rfl⟩
  case writeb =>
    obtain ⟨⟨⟨rfl, rfl⟩, x, rfl, -⟩, y, rfl, -⟩ := h
    exact ⟨.writeb, x, y, rfl⟩
  case size =>
    obtain ⟨⟨⟨rfl, rfl⟩, rfl⟩, rfl⟩ := h
    exact ⟨.size, 0, 0, rfl⟩
  case pos =>
    obtain ⟨⟨⟨rfl, rfl⟩, rfl⟩, rfl⟩ := h
    exact ⟨.pos, 0, 0, rfl⟩
  case seek =>
    obtain ⟨⟨⟨rfl, rfl⟩, x, rfl, -⟩, rfl⟩ := h
    exact ⟨.seek, x, 0, rfl⟩

theorem exists_lineOf_of_assemble {l : AsmLine} {t : Transfer} (h : assemble l = some t) :
    ∃ c a b, l = lineOf a b c := by
  obtain ⟨m, suffix, tag, a, b⟩ := l
  unfold assemble at h
  split at h
  case h_1 => subst_vars; exact ⟨.cget _ _, _, 0, rfl⟩
  case h_2 => subst_vars; exact ⟨.cput _ _, _, _, rfl⟩
  case h_3 => subst_vars; exact ⟨.openr _, _, _, rfl⟩
  case h_4 => subst_vars; exact ⟨.openw _, _, _, rfl⟩
  case h_5 => subst_vars; exact ⟨.read _, 0, 0, rfl⟩
  case h_6 => subst_vars; exact ⟨.write _, 0, _, rfl⟩
  case h_7 => subst_vars; exact ⟨.readb, _, _, rfl⟩
  case h_8 => subst_vars; exact ⟨.writeb, _, _, rfl⟩
  case h_9 => subst_vars; exact ⟨.size, 0, 0, rfl⟩
  case h_10 => subst_vars; exact ⟨.pos, 0, 0, rfl⟩
  case h_11 => subst_vars; exact ⟨.seek, _, 0, rfl⟩
  case h_12 => cases h

/-- The line of a command assembles exactly when its operands are in range, and to that command. -/
theorem assemble_lineOf_iff (a b : Int) (c : Command) (t : Transfer) :
    assemble (lineOf a b c) = some t ↔
      (lineOf a b c).hasItsParts = true ∧
        t = { word := c.word, a := operandWord (lineOf a b c).a, b := operandWord (lineOf a b c).b } := by
  cases c <;>
    simp only [lineOf, assemble, AsmLine.hasItsParts, operandWord, asmCommand_eq_some_iff, asmUnsigned_eq_some_iff,
      asmValue_eq_some_iff] <;>
    simp [and_assoc]

/-- A command has a line that assembles: the one that writes 0 for its operands. -/
theorem lineOf_zero_hasItsParts (c : Command) : (lineOf 0 0 c).hasItsParts = true := by cases c <;> rfl

theorem exists_assemble_iff (l : AsmLine) : (∃ t, assemble l = some t) ↔ l.hasItsParts = true := by
  constructor
  · rintro ⟨t, h⟩
    obtain ⟨c, a, b, rfl⟩ := exists_lineOf_of_assemble h
    exact ((assemble_lineOf_iff a b c t).mp h).1
  · intro h
    obtain ⟨c, a, b, rfl⟩ := exists_lineOf_of_hasItsParts h
    exact ⟨_, (assemble_lineOf_iff a b c _).mpr ⟨h, rfl⟩⟩

theorem decode_word (c : Command) : decode c.word = .ok c.instr := by
  simpa [encode] using decode_encode c.instr

end Sys2Proof.Machine
end

section
/-!
The codec as an inverse pair (R117, R118), and the bytes a put leaves for a later get.
-/
namespace Sys2Proof.Machine

/-! ### Decode after encode (R117) -/

/-- A tag spells only the low 8L bits. -/
theorem spell_congr_mod {p q : Word} (t : Tag) (h : p.toNat % 2 ^ (8 * t.byteLen) = q.toNat % 2 ^ (8 * t.byteLen)) :
    spell t p = spell t q := by
  have hcut : p.setWidth (8 * t.byteLen) = q.setWidth (8 * t.byteLen) := BitVec.eq_of_toNat_eq (by simpa using h)
  rw [spell, spell, hcut]

theorem decodeBytes_encodeBytes (e : ByteOrder) (t : Tag) (v : Word) :
    decodeBytes e t (encodeBytes e t v) = spell t v :=
  spell_congr_mod t (by rw [toNat_assembled_mod e (length_encodeBytes e t v), patternOf_encodeBytes])

theorem spell_of_representable {t : Tag} {v : Word} (h : Representable t v) : spell t v = v := by
  unfold Representable at h
  split at h
  case isTrue hsigned => rw [spell, if_pos hsigned, ← h]
  case isFalse hunsigned =>
    refine BitVec.eq_of_toNat_eq ?_
    rw [toNat_spell_of_unsigned (by simpa using hunsigned), Nat.mod_eq_of_lt h]

/-! ### The mirror property (R118) -/

theorem patternOf_be_concat (bs : List Byte) (b : Byte) :
    patternOf .be (bs ++ [b]) = 2 ^ 8 * patternOf .be bs + b.toNat := by
  induction bs with
  | nil => simp [patternOf_be_cons]
  | cons c bs ih =>
    rw [List.cons_append, patternOf_be_cons, patternOf_be_cons, ih, List.length_append, List.length_singleton,
      Nat.mul_succ, Nat.pow_add]
    ring

theorem patternOf_be_reverse (bs : List Byte) : patternOf .be bs.reverse = patternOf .le bs := by
  induction bs with
  | nil => rfl
  | cons b bs ih => rw [List.reverse_cons, patternOf_be_concat, ih, patternOf_le_cons]

theorem decodeBytes_be_reverse {t : Tag} {bs : List Byte} (hlen : bs.length = t.byteLen) :
    decodeBytes .be t bs.reverse = decodeBytes .le t bs := by
  refine spell_congr_mod t ?_
  rw [toNat_assembled_mod .be (by simpa using hlen), toNat_assembled_mod .le hlen, patternOf_be_reverse]

/-! ### Reading back what was stored -/

theorem bytesFrom_of_storesExactly {m : Memory} {t : State} {a : Word} {bs : List Byte}
    (h : StoresExactly m t.mem a bs) (hm : t.mutated = []) : t.bytesFrom a bs.length = bs := by
  refine List.ext_getElem (by simp [State.bytesFrom]) fun j hj hj' => ?_
  have hread := h.1 j hj'
  rw [List.getElem?_eq_getElem hj', Option.some_inj] at hread
  simpa [State.bytesFrom, State.byteAt_unmutated hm] using hread

theorem State.take_bytesFrom (s : State) (a : Word) {m n : Nat} (h : m ≤ n) :
    (s.bytesFrom a n).take m = s.bytesFrom a m := by
  simp [State.bytesFrom, ← List.map_take, List.take_range, Nat.min_eq_left h]

theorem decodeBytes_stored {m : Memory} {t : State} {a v : Word} {e : ByteOrder} {g : Tag}
    (h : StoresExactly m t.mem a (encodeBytes e g v)) (hm : t.mutated = []) :
    decodeBytes e g (t.bytesFrom a g.byteLen) = spell g v := by
  have hbytes := bytesFrom_of_storesExactly h hm
  rw [length_encodeBytes] at hbytes
  rw [hbytes, decodeBytes_encodeBytes]

/-! ### Commands one after the other -/

/-- A step of a command whose checks pass, by the word of its instruction. -/
theorem step_completes {s : State} {c : Transfer} {i : Instr} (hf : s.fatal = false)
    (hp : s.program[s.index]? = some (.command c)) (hw : c.word = encode i)
    (hc : checkOf i.command s.accept = none) : step s = .next (effectOf i.command s.accept) := by
  rw [step_command hf hp (hw ▸ decode_encode i), exec_of_pass (s := s.accept) hf hc]

/-- After a completing command the host's list is as it was, one place on. -/
theorem effectOf_program_getElem? (c : Command) (s : State) (k : Nat) :
    (effectOf c s).program[(effectOf c s).index + k]? = s.program[s.index + (k + 1)]? := by
  obtain ⟨-, -, hprogram, -, hindex, -⟩ := effectOf_frame c s
  rw [hprogram, hindex, Nat.add_assoc, Nat.add_comm 1 k]

/-- A command that neither opens a session nor moves the cursor leaves all seven registers. -/
theorem effectOf_sameRegisters (c : Command) (s : State) (h : keepsCursor c = true) :
    SameRegisters s (effectOf c s) := by
  have hopens : opensSession c = false := by
    cases c with
    | openr | openw => cases h
    | cget | cput | read | write | readb | writeb | size | pos | seek => rfl
  obtain ⟨hsession, hbase, hsize, horder⟩ := effectOf_view c s hopens
  obtain ⟨hfatal, hcause, -⟩ := effectOf_frame c s
  exact ⟨hsession, horder, hbase, hsize, effectOf_pos_of_keepsCursor c s h, hfatal, hcause⟩

theorem exec_cget {s : State} {i : Instr} {g : Tag} {e : ByteOrder} (hi : i.command = .cget g e)
    (hf : s.fatal = false) (hA : s.operandA ≠ 0) : exec i s = .next (cgetEffect g e s) := by
  have hc : checkOf i.command s = none := by rw [hi]; exact (nullCheck_eq_none _).mpr hA
  rw [exec_of_pass hf hc, hi, effectOf]

theorem exec_cput {s : State} {i : Instr} {g : Tag} {e : ByteOrder} (hi : i.command = .cput g e)
    (hf : s.fatal = false) (hA : s.operandA ≠ 0) : exec i s = .next (cputEffect g e s) := by
  have hc : checkOf i.command s = none := by rw [hi]; exact (nullCheck_eq_none _).mpr hA
  rw [exec_of_pass hf hc, hi, effectOf]

theorem cgetEffect_rsp (g : Tag) (e : ByteOrder) (s : State) :
    (cgetEffect g e s).rsp = some (decodeBytes e g (s.bytesFrom s.operandA g.byteLen)) := by
  rw [cgetEffect_eq]

/-- A get decodes the first of the bytes that stand at its address. -/
theorem cget_rsp_of_stored {m : Memory} {t u : State} {i : Instr} {g : Tag} {e : ByteOrder} {bs : List Byte}
    (hi : i.command = .cget g e) (hf : t.fatal = false) (hm : t.mutated = []) (hA : t.operandA ≠ 0)
    (hstores : StoresExactly m t.mem t.operandA bs) (hg : g.byteLen ≤ bs.length) (h : exec i t = .next u) :
    u.rsp = some (decodeBytes e g (bs.take g.byteLen)) := by
  rw [exec_cget hi hf hA] at h
  cases h
  rw [cgetEffect_rsp, ← State.take_bytesFrom t _ hg, bytesFrom_of_storesExactly hstores hm]

end Sys2Proof.Machine
end

section
/-!
The obligations of 30_encoding.md on examples and the assembler, and of 40_codec.md on CGET, CPUT and the codec's laws.
-/
open Sys2Proof Sys2Proof.Machine

/-- Settles O1: fifteen rows, each evaluated. -/
theorem encodingExamplesOfR92 : Obligations.EncodingExamplesOfR92 := by
  unfold Obligations.EncodingExamplesOfR92
  decide

/-- Settles O6: a line that assembles, or has its parts, is the line of a command. -/
theorem everyLineAssemblesToOneCommand : Obligations.EveryLineAssemblesToOneCommand := by
  unfold Obligations.EveryLineAssemblesToOneCommand
  refine ⟨exists_assemble_iff, fun l t h => ?_, fun i => ?_⟩
  · obtain ⟨c, a, b, rfl⟩ := exists_lineOf_of_assemble h
    obtain ⟨-, rfl⟩ := (assemble_lineOf_iff a b c t).mp h
    refine ⟨c.instr, decode_word c, ?_, fun x hx => by simp [operandWord, hx], fun x hx => by simp [operandWord, hx]⟩
    rw [command_instr]
    cases c <;> exact ⟨rfl, rfl, rfl⟩
  · refine ⟨lineOf 0 0 i.command, _, (assemble_lineOf_iff 0 0 i.command _).mpr ⟨lineOf_zero_hasItsParts _, rfl⟩, ?_⟩
    exact decode_encode i

/-- Settles O26: the check is the null check of A, the effect one record update. -/
theorem cgetRespondsTheDecodedSlice : Obligations.CgetRespondsTheDecodedSlice := by
  unfold Obligations.CgetRespondsTheDecodedSlice
  intro s i g e hi hf hA
  rw [exec_cget hi hf hA, cgetEffect_eq]

/-- Settles O27: the check is the null check of A, the effect stores the encoded bytes and is one record update. -/
theorem cputStoresExactlyItsBytes : Obligations.CputStoresExactlyItsBytes := by
  unfold Obligations.CputStoresExactlyItsBytes
  intro s i g e hi hf hA
  exact ⟨_, exec_cput hi hf hA, cputEffect_spec g e s⟩

/-- Settles O32: decoding the encoded bytes spells the value, and a representable value is its own spelling. -/
theorem decodeAfterEncodeIsSymmetric : Obligations.DecodeAfterEncodeIsSymmetric := by
  unfold Obligations.DecodeAfterEncodeIsSymmetric
  intro e g v
  exact ⟨fun h => (decodeBytes_encodeBytes e g v).trans (spell_of_representable h), decodeBytes_encodeBytes e g v⟩

/-- Settles O33: the lanes of one order count from the other end, so a slice and its reverse are the same number. -/
theorem bigEndianMirrorsLittleEndian : Obligations.BigEndianMirrorsLittleEndian := by
  unfold Obligations.BigEndianMirrorsLittleEndian
  refine ⟨fun g v i hi => ?_, fun g bs => decodeBytes_be_reverse⟩
  rw [getElem?_encodeBytes .be g v hi, getElem?_encodeBytes .le g v (by omega)]
  rfl

/-- Settles O34: the get decodes the bytes that the put has stored. -/
theorem putThenGetReturnsTheValue : Obligations.PutThenGetReturnsTheValue := by
  unfold Obligations.PutThenGetReturnsTheValue
  intro s g e p q hf hm hp hq hpw hqw hpq hA
  obtain ⟨hpa, hpb⟩ := accept_operands_of_command hp
  have hput : step s = .next (effectOf (.cput g e) s.accept) := by
    simpa using step_completes hf hp hpw (by simpa [checkOf, codecCheck, hpa] using hA)
  obtain ⟨hstores, -⟩ := cputEffect_spec g e s.accept
  obtain ⟨hfatal, -, -, hmutated, -⟩ := effectOf_frame (.cput g e) s.accept
  have hregs := effectOf_sameRegisters (.cput g e) s.accept rfl
  have hnext := (effectOf_program_getElem? (.cput g e) s.accept 0).trans hq
  have hrsp : (effectOf (.cput g e) s.accept).rsp = some 0 := rfl
  change StoresExactly s.mem (effectOf (.cput g e) s.accept).mem _ _ at hstores
  rw [hpa, hpb, hpq] at hstores
  generalize effectOf (.cput g e) s.accept = t at *
  obtain ⟨hqa, -⟩ := accept_operands_of_command hnext
  have hget : step t = .next (effectOf (.cget g e) t.accept) := by
    simpa using step_completes (hfatal.trans hf) hnext hqw (by simpa [checkOf, codecCheck, hqa, ← hpq] using hA)
  have hvalue : (cgetEffect g e t.accept).rsp = some (spell g p.b) := by
    rw [cgetEffect_rsp, hqa]
    exact congrArg some (decodeBytes_stored hstores (hmutated.trans hm))
  refine ⟨t, _, hput, hrsp, hget, ?_, fun hrep => ?_, hvalue⟩
  · obtain ⟨h₁, h₂, h₃, h₄, h₅, h₆, h₇⟩ := effectOf_sameRegisters (.cget g e) t.accept rfl
    obtain ⟨k₁, k₂, k₃, k₄, k₅, k₆, k₇⟩ := hregs
    exact ⟨h₁.trans k₁, h₂.trans k₂, h₃.trans k₃, h₄.trans k₄, h₅.trans k₅, h₆.trans k₆, h₇.trans k₇⟩
  · exact hvalue.trans (congrArg some (spell_of_representable hrep))

/-- Settles O35: the put stores the four bytes, and each get decodes the first of them. -/
theorem mixedAccessesSeeTheStoredBytes : Obligations.MixedAccessesSeeTheStoredBytes := by
  unfold Obligations.MixedAccessesSeeTheStoredBytes
  intro s t u i hf hm hA hB ht hAt hu
  rw [exec_cput (g := .u32) (e := .le) rfl hf hA] at ht
  cases ht
  obtain ⟨hstores, -⟩ := cputEffect_spec .u32 .le s
  obtain ⟨hfatal, -, -, hmutated, -⟩ := effectOf_frame (.cput .u32 .le) s
  have hbytes : encodeBytes .le .u32 0x01020304 = [0x04, 0x03, 0x02, 0x01] := by decide
  rw [hB, hbytes] at hstores
  have hget : ∀ (g : Tag) (e : ByteOrder), i.command = .cget g e → g.byteLen ≤ 4 →
      u.rsp = some (decodeBytes e g (List.take g.byteLen [0x04, 0x03, 0x02, 0x01])) := fun g e hi hg =>
    cget_rsp_of_stored hi (hfatal.trans hf) (hmutated.trans hm) (hAt ▸ hA) (hAt ▸ hstores) hg hu
  refine ⟨bytesFrom_of_storesExactly hstores (hmutated.trans hm), ?_, ?_, ?_⟩
  · rintro rfl; exact hget .u16 .le rfl (by decide)
  · rintro rfl; exact hget .u16 .be rfl (by decide)
  · rintro rfl; exact hget .u32 .be rfl (by decide)
end

section
/-!
The stream commands in a session that meets their checks, and the closed form of a bulk copy (41_cursor.md).
-/
namespace Sys2Proof.Machine

/-! ### Checks that pass in a session -/

theorem sessionCheck_reader {s : State} (hs : s.session = .reader) : sessionCheck .reader s = none := by
  simp [sessionCheck, hs]

theorem sessionCheck_writer {s : State} (hs : s.session = .writer) : sessionCheck .writer s = none := by
  simp [sessionCheck, hs]

theorem sessionCheck_either {s : State} (hs : s.session ≠ .none) : sessionCheck .either s = none := by
  rw [sessionCheck_eq_none]
  exact ⟨hs, by rintro ⟨⟩, by rintro ⟨⟩⟩

theorem typedCheck_pass {need : Need} {g : Tag} {s : State} (hs : sessionCheck need s = none)
    (hcap : g.byteLen ≤ s.remaining) (hnull : s.cursor ≠ 0) : typedCheck need g s = none :=
  (typedCheck_eq_nullCheck hs hcap).trans ((nullCheck_eq_none _).mpr hnull)

theorem bulkCheck_eq_capacityCheck {need : Need} {s : State} (hs : sessionCheck need s = none) :
    bulkCheck need s = capacityCheck s.operandB.toNat s := by
  rw [bulkCheck, hs, Option.none_or]

theorem bulkCheck_pass {need : Need} {s : State} (hs : sessionCheck need s = none)
    (hcap : s.operandB.toNat ≤ s.remaining) : bulkCheck need s = none :=
  (bulkCheck_eq_capacityCheck hs).trans ((capacityCheck_eq_none _ _).mpr hcap)

theorem typedCheck_capacity {need : Need} {g : Tag} {s : State} (hs : sessionCheck need s = none)
    (hcap : s.remaining < g.byteLen) : typedCheck need g s = some .capacity := by
  rw [typedCheck, hs, Option.none_or, capacityCheck, if_pos hcap, Option.some_or]

theorem bulkCheck_capacity {need : Need} {s : State} (hs : sessionCheck need s = none)
    (hcap : s.remaining < s.operandB.toNat) : bulkCheck need s = some .capacity := by
  rw [bulkCheck_eq_capacityCheck hs, capacityCheck, if_pos hcap]

theorem seekCheck_seekRange {s : State} (hs : s.session ≠ .none) (hA : s.size.toNat < s.operandA.toNat) :
    seekCheck s = some .seekRange := by
  rw [seekCheck, sessionCheck_either hs, Option.none_or, if_pos hA]

/-! ### Stream commands that complete -/

section
variable {s : State} (hf : s.fatal = false)
include hf

theorem exec_read {i : Instr} {g : Tag} (hi : i.command = .read g) (hs : s.session = .reader)
    (hcap : g.byteLen ≤ s.remaining) (hnull : s.cursor ≠ 0) : exec i s = .next (readEffect g s) := by
  have hc : checkOf i.command s = none := by rw [hi]; exact typedCheck_pass (sessionCheck_reader hs) hcap hnull
  rw [exec_of_pass hf hc, hi, effectOf]

theorem exec_write {i : Instr} {g : Tag} (hi : i.command = .write g) (hs : s.session = .writer)
    (hcap : g.byteLen ≤ s.remaining) (hnull : s.cursor ≠ 0) : exec i s = .next (writeEffect g s) := by
  have hc : checkOf i.command s = none := by rw [hi]; exact typedCheck_pass (sessionCheck_writer hs) hcap hnull
  rw [exec_of_pass hf hc, hi, effectOf]

theorem exec_readb (hs : s.session = .reader) (hcap : s.operandB.toNat ≤ s.remaining) :
    exec .readb s = .next (readbEffect s) :=
  exec_of_pass (i := .readb) hf (bulkCheck_pass (sessionCheck_reader hs) hcap)

theorem exec_writeb (hs : s.session = .writer) (hcap : s.operandB.toNat ≤ s.remaining) :
    exec .writeb s = .next (writebEffect s) :=
  exec_of_pass (i := .writeb) hf (bulkCheck_pass (sessionCheck_writer hs) hcap)

theorem exec_size (hs : s.session ≠ .none) : exec .size s = .next (sizeEffect s) :=
  exec_of_pass (i := .size) hf (sessionCheck_either hs)

theorem exec_pos (hs : s.session ≠ .none) : exec .pos s = .next (posEffect s) :=
  exec_of_pass (i := .pos) hf (sessionCheck_either hs)

theorem exec_seek (hs : s.session ≠ .none) (hA : s.operandA.toNat ≤ s.size.toNat) :
    exec .seek s = .next (seekEffect s) :=
  exec_of_pass (i := .seek) hf ((seekCheck_eq_none s).mpr ⟨hs, hA⟩)

theorem exec_openr (e : ByteOrder) (hA : s.operandA ≠ 0) (hB : s.operandB ≠ 0) :
    exec (.openr e) s = .next (openEffect .reader e s) :=
  exec_of_pass (i := .openr e) hf ((openCheck_eq_none s).mpr ⟨hA, hB⟩)

theorem exec_openw (e : ByteOrder) (hA : s.operandA ≠ 0) (hB : s.operandB ≠ 0) :
    exec (.openw e) s = .next (openEffect .writer e s) :=
  exec_of_pass (i := .openw e) hf ((openCheck_eq_none s).mpr ⟨hA, hB⟩)

/-- A command whose checks fail on its capacity halts (R193). -/
theorem exec_capacity {i : Instr} (hc : checkOf i.command s = some .capacity) :
    exec i s = .next { s with fatal := true, cause := .capacity, rsp := none } :=
  (exec_eq_raiseFatal_iff hf i _).mpr hc

end

/-- A step of a command, by the word of its instruction. -/
theorem step_word {s : State} {c : Transfer} {i : Instr} (hf : s.fatal = false)
    (hp : s.program[s.index]? = some (.command c)) (hw : c.word = encode i) : step s = exec i s.accept :=
  step_command hf hp (hw ▸ decode_encode i)

/-- An empty bulk copy only responds. -/
theorem empty_copy_eq {s : State} (hB : s.operandB = 0) (src dst : Word) :
    ((s.copySlice s.operandB.toNat src dst).advance s.operandB).respond 0 =
      { s with rsp := some 0, index := s.index + 1 } := by
  simp [hB, State.copySlice, State.advance, State.respond]

/-! ### Advances -/

theorem opensSession_of_advance {c : Command} {n : Nat} {s : State} (h : advanceOf c s = some n) :
    opensSession c = false := by
  cases c with
  | openr | openw => cases h
  | cget | cput | read | write | readb | writeb | size | pos | seek => rfl

theorem exists_needOf_of_advance {c : Command} {n : Nat} {s : State} (h : advanceOf c s = some n) :
    ∃ need, needOf c = some need := by
  cases c with
  | read | write | readb | writeb => exact ⟨_, rfl⟩
  | cget | cput | openr | openw | size | pos | seek => cases h

/-! ### The closed form of a bulk copy (R59, R160) -/

/-- Byte j of a copy is the byte at source offset `j % d`, where d is the distance to the destination: a byte the copy
has already stored is the one d places before it. -/
theorem getElem?_copiedBytes {s : State} {src dst : Word} {bs : List Byte} (hm : s.mutated = [])
    (h : CopiedBytes s src dst bs) {j : Nat} (hj : j < bs.length) :
    bs[j]? = some (s.mem.read (addr src (j % (dst - src).toNat))) := by
  have hsettled : ∀ c, s.unsettled c = false := fun c => by simp [State.unsettled, hm]
  induction j using Nat.strong_induction_on with
  | _ j ih =>
    have hbyte := h j hj
    simp only [hsettled, and_true, State.byteAt_unmutated hm] at hbyte
    generalize (dst - src).toNat = d at *
    rw [hbyte]
    split
    case isTrue hback =>
      obtain ⟨hpos, hle⟩ := hback
      rw [ih (j - d) (by omega) (by omega), Nat.mod_eq_sub_mod hle]
    case isFalse hfresh =>
      obtain rfl | hpos := Nat.eq_zero_or_pos d
      · rw [Nat.mod_zero]
      · rw [Nat.mod_eq_of_lt (by omega)]

end Sys2Proof.Machine
end

section
/-!
The obligations of 41_cursor.md on one command.
-/
open Sys2Proof Sys2Proof.Machine

/-- Settles O36: the checks are those of the operands, the effect one record update. -/
theorem openConstructsTheSession : Obligations.OpenConstructsTheSession := by
  unfold Obligations.OpenConstructsTheSession
  intro s e hf hA hB
  exact ⟨exec_openr hf e hA hB, exec_openw hf e hA hB⟩

/-- Settles O37: with its checks met, READ has its effect, one record update. -/
theorem readRespondsAndAdvances : Obligations.ReadRespondsAndAdvances := by
  unfold Obligations.ReadRespondsAndAdvances
  intro s i g hi hf hs hcap hnull
  rw [exec_read hf hi hs hcap hnull, readEffect_eq]
  rfl

/-- Settles O38: with its checks met, WRITE has its effect: its bytes stored, and one record update. -/
theorem writeStoresAndAdvances : Obligations.WriteStoresAndAdvances := by
  unfold Obligations.WriteStoresAndAdvances
  intro s i g hi hf hs hcap hnull
  exact ⟨_, exec_write hf hi hs hcap hnull, writeEffect_spec g s⟩

/-- Settles O39: with its checks met, READB copies from the cursor to A. -/
theorem readbCopiesOutOfTheBuffer : Obligations.ReadbCopiesOutOfTheBuffer := by
  unfold Obligations.ReadbCopiesOutOfTheBuffer
  intro s hf hs hcap
  obtain ⟨bs, hcopy⟩ := copyRespond_spec s s.cursor s.operandA
  exact ⟨_, bs, exec_readb hf hs hcap, hcopy⟩

/-- Settles O40: with its checks met, WRITEB copies from A to the cursor. -/
theorem writebCopiesIntoTheBuffer : Obligations.WritebCopiesIntoTheBuffer := by
  unfold Obligations.WritebCopiesIntoTheBuffer
  intro s hf hs hcap
  obtain ⟨bs, hcopy⟩ := copyRespond_spec s s.operandA s.cursor
  exact ⟨_, bs, exec_writeb hf hs hcap, hcopy⟩

/-- Settles O41: the copy stores the bytes it moves, which are those of its closed form. -/
theorem overlappingCopyRepeatsItsFirstBytes : Obligations.OverlappingCopyRepeatsItsFirstBytes := by
  unfold Obligations.OverlappingCopyRepeatsItsFirstBytes
  intro s n j src dst hm hn hj
  obtain ⟨bs, rfl, hcopied, ⟨hstored, -⟩, -⟩ := s.copySlice_spec n src dst hn
  exact Option.some_inj.mp ((hstored j hj).trans (getElem?_copiedBytes hm hcopied hj))

/-- Settles O42: a session is all the two queries check. -/
theorem queriesRespondSizeAndPosition : Obligations.QueriesRespondSizeAndPosition := by
  unfold Obligations.QueriesRespondSizeAndPosition
  exact fun s hf hs => ⟨exec_size hf hs, exec_pos hf hs⟩

/-- Settles O43: the two sides of the comparison of A with SIZE. -/
theorem seekMovesWithinTheView : Obligations.SeekMovesWithinTheView := by
  unfold Obligations.SeekMovesWithinTheView
  intro s hf hs
  exact ⟨exec_seek hf hs, fun hA => (exec_eq_raiseFatal_iff hf .seek _).mpr (seekCheck_seekRange hs hA)⟩

/-- Settles O46: at the end of the view nothing remains, so that every advance but an empty one fails on CAPACITY. -/
theorem sessionAtItsEndIsStillOpen : Obligations.SessionAtItsEndIsStillOpen := by
  unfold Obligations.SessionAtItsEndIsStillOpen
  intro s hf hs hend
  have hleft : s.remaining = 0 := by rw [State.remaining, hend, Nat.sub_self]
  refine ⟨⟨_, exec_size hf hs, hf, rfl⟩, ⟨_, exec_pos hf hs, hf, rfl⟩, fun hA => ⟨_, exec_seek hf hs hA, hf, rfl⟩,
    fun i hi => ⟨fun hB => ?_, fun hB => ?_⟩, fun i g hi => ?_⟩
  · have hcap : s.operandB.toNat ≤ s.remaining := by rw [hB]; exact Nat.zero_le _
    obtain ⟨rfl, hk⟩ | ⟨rfl, hk⟩ := hi
    · rw [exec_readb hf hk hcap, readbEffect, empty_copy_eq hB]
    · rw [exec_writeb hf hk hcap, writebEffect, empty_copy_eq hB]
  · have hcap : s.remaining < s.operandB.toNat := by
      rw [hleft]; exact Nat.pos_of_ne_zero fun h => hB (BitVec.eq_of_toNat_eq h)
    obtain ⟨rfl, hk⟩ | ⟨rfl, hk⟩ := hi
    · exact exec_capacity (i := .readb) hf (bulkCheck_capacity (sessionCheck_reader hk) hcap)
    · exact exec_capacity (i := .writeb) hf (bulkCheck_capacity (sessionCheck_writer hk) hcap)
  · have hcap : s.remaining < g.byteLen := by rw [hleft]; exact (Tag.byteLen_pos g).1
    obtain ⟨hi, hk⟩ | ⟨hi, hk⟩ := hi <;> refine exec_capacity hf ?_ <;> rw [hi]
    · exact typedCheck_capacity (sessionCheck_reader hk) hcap
    · exact typedCheck_capacity (sessionCheck_writer hk) hcap

/-- Settles O47: a command that advances has checked that its bytes remain. -/
theorem noAdvancePassesByOverflow : Obligations.NoAdvancePassesByOverflow := by
  unfold Obligations.NoAdvancePassesByOverflow
  rintro s t i n ⟨hview, -⟩ h ht hi
  have hadvance : advanceOf i.command s = some n := by
    obtain ⟨g, hi | hi, rfl⟩ | ⟨rfl | rfl, rfl⟩ := hi
    · rw [hi]; rfl
    · rw [hi]; rfl
    · rfl
    · rfl
  obtain ⟨-, ⟨v, -, rfl⟩ | ⟨hc, rfl⟩⟩ := exec_cases h
  · cases ht
  · obtain ⟨need, hneed⟩ := exists_needOf_of_advance hadvance
    obtain ⟨-, -, hpos⟩ := hview (session_ne_none_of_pass hneed hc)
    obtain ⟨-, -, hsize, -⟩ := effectOf_view i.command s (opensSession_of_advance hadvance)
    have hroom := le_remaining_of_pass hadvance hc
    have hmoved := toNat_effectOf_pos_of_advance hadvance hc
    rw [State.remaining] at hroom
    exact ⟨hroom, hmoved, by rw [hmoved, hsize]; omega⟩
end

section
/-!
Commands one after the other in a session (41_cursor.md section 5), and a byte read after a byte written (R65).
-/
namespace Sys2Proof.Machine

/-- A READ leaves the block running, in its session over its view, one action on and its cursor past the bytes read. -/
theorem readEffect_session (g : Tag) (s : State) :
    (readEffect g s).fatal = s.fatal ∧ (readEffect g s).session = s.session ∧ (readEffect g s).base = s.base ∧
      (readEffect g s).size = s.size ∧ (readEffect g s).order = s.order ∧
      (readEffect g s).pos = s.pos + BitVec.ofNat 64 g.byteLen ∧ (readEffect g s).rsp.isSome = true := by
  simp [readEffect_eq]

theorem readEffect_rsp (g : Tag) (s : State) :
    (readEffect g s).rsp = some (decodeBytes s.order g (s.bytesFrom s.cursor g.byteLen)) := by
  rw [readEffect_eq]

/-- A read after a write, where no other agent has interfered. -/
theorem byteAt_memWrite_of_unmutated {s : State} (hm : s.mutated = []) (a c : Word) (b : Byte) :
    (s.memWrite a b).byteAt c = if c = a then b else s.byteAt c := by
  simp [State.byteAt_memWrite, State.unsettled, hm, eq_comm]

theorem openEffect_cursor (kind : Session) (e : ByteOrder) (s : State) :
    (openEffect kind e s).accept.cursor = s.operandA := by
  simp [State.cursor]

theorem openEffect_remaining (kind : Session) (e : ByteOrder) (s : State) :
    (openEffect kind e s).accept.remaining = s.operandB.toNat := by
  simp [State.remaining]

theorem ne_zero_of_byteLen_le {g : Tag} {w : Word} (h : g.byteLen ≤ w.toNat) : w ≠ 0 := by
  rintro rfl
  exact absurd (Tag.byteLen_pos g).1 (by simpa using h)

/-- OPENW and then WRITE at the start of the new view: two steps that store the value's bytes there, and leave the next
commands to come. -/
theorem openw_write {s : State} {g : Tag} {e : ByteOrder} {p q : Transfer} (hf : s.fatal = false)
    (hp : s.program[s.index]? = some (.command p)) (hq : s.program[s.index + 1]? = some (.command q))
    (hpw : p.word = encode (.openw e)) (hqw : q.word = encode (Command.write g).instr) (hA : p.a ≠ 0)
    (hB : g.byteLen ≤ p.b.toNat) :
    ∃ t u, step s = .next t ∧ t.rsp = some 0 ∧ step t = .next u ∧ u.rsp = some 0 ∧ u.fatal = false ∧
      u.mutated = s.mutated ∧ u.program = s.program ∧ u.index = s.index + 2 ∧
      StoresExactly s.mem u.mem p.a (encodeBytes e g q.b) := by
  obtain ⟨hpa, hpb⟩ := accept_operands_of_command hp
  have hopen : step s = .next (openEffect .writer e s.accept) :=
    (step_word hf hp hpw).trans (exec_openw (s := s.accept) hf e (hpa ▸ hA) (hpb ▸ ne_zero_of_byteLen_le hB))
  have hcursor := (openEffect_cursor .writer e s.accept).trans hpa
  have hroom : g.byteLen ≤ (openEffect .writer e s.accept).accept.remaining := by
    rwa [openEffect_remaining, hpb]
  obtain ⟨-, hqb⟩ := accept_operands_of_command (s := openEffect .writer e s.accept) hq
  have hwrite : step (openEffect .writer e s.accept) =
      .next (writeEffect g (openEffect .writer e s.accept).accept) :=
    (step_word (s := openEffect .writer e s.accept) hf hq hqw).trans
      (exec_write (s := (openEffect .writer e s.accept).accept) hf (command_instr _) rfl hroom (hcursor ▸ hA))
  obtain ⟨hstores, -⟩ := writeEffect_spec g (openEffect .writer e s.accept).accept
  obtain ⟨hfatal, -, hprogram, hmutated, hindex, -⟩ :=
    effectOf_frame (.write g) (openEffect .writer e s.accept).accept
  rw [hcursor, hqb] at hstores
  exact ⟨_, _, hopen, rfl, hwrite, rfl, hfatal.trans hf, hmutated, hprogram, hindex, hstores⟩

/-- OPENR and then READ at the start of the new view: two steps that respond the bytes there. -/
theorem openr_read {s : State} {g : Tag} {e : ByteOrder} {p q : Transfer} (hf : s.fatal = false)
    (hp : s.program[s.index]? = some (.command p)) (hq : s.program[s.index + 1]? = some (.command q))
    (hpw : p.word = encode (.openr e)) (hqw : q.word = encode (Command.read g).instr) (hA : p.a ≠ 0)
    (hB : g.byteLen ≤ p.b.toNat) (hm : s.mutated = []) :
    ∃ t u, step s = .next t ∧ t.rsp = some 0 ∧ step t = .next u ∧ u.fatal = false ∧ u.session = .reader ∧
      u.base = p.a ∧ u.size = p.b ∧ u.order = e ∧ u.pos.toNat = g.byteLen ∧
      u.rsp = some (decodeBytes e g (s.bytesFrom p.a g.byteLen)) := by
  obtain ⟨hpa, hpb⟩ := accept_operands_of_command hp
  have hopen : step s = .next (openEffect .reader e s.accept) :=
    (step_word hf hp hpw).trans (exec_openr (s := s.accept) hf e (hpa ▸ hA) (hpb ▸ ne_zero_of_byteLen_le hB))
  have hcursor := (openEffect_cursor .reader e s.accept).trans hpa
  have hroom : g.byteLen ≤ (openEffect .reader e s.accept).accept.remaining := by
    rwa [openEffect_remaining, hpb]
  have hread : step (openEffect .reader e s.accept) =
      .next (readEffect g (openEffect .reader e s.accept).accept) :=
    (step_word (s := openEffect .reader e s.accept) hf hq hqw).trans
      (exec_read (s := (openEffect .reader e s.accept).accept) hf (command_instr _) rfl hroom (hcursor ▸ hA))
  obtain ⟨hfatal, hsession, hbase, hsize, horder, hpos, -⟩ :=
    readEffect_session g (openEffect .reader e s.accept).accept
  refine ⟨_, _, hopen, rfl, hread, hfatal.trans hf, hsession, hbase.trans hpa, hsize.trans hpb, horder, ?_, ?_⟩
  · rw [hpos, toNat_pos_add hroom]
    exact Nat.zero_add _
  · have hbytes : (openEffect .reader e s.accept).accept.bytesFrom p.a g.byteLen = s.bytesFrom p.a g.byteLen := by
      simp [State.bytesFrom, State.byteAt_unmutated, hm]
    rw [readEffect_rsp, hcursor, hbytes]
    rfl

end Sys2Proof.Machine
end

section
/-!
The obligations of 41_cursor.md section 5 on commands in sequence, and R65.
-/
open Sys2Proof Sys2Proof.Machine

/-- Settles O44: SEEK puts A in POS, and POS responds it. -/
theorem seekThenPositionGivesTheTarget : Obligations.SeekThenPositionGivesTheTarget := by
  unfold Obligations.SeekThenPositionGivesTheTarget
  intro s p q hf hs hp hq hpw hqw hA
  obtain ⟨hpa, -⟩ := accept_operands_of_command hp
  have hseek : step s = .next (seekEffect s.accept) :=
    (step_word hf hp hpw).trans (exec_seek (s := s.accept) hf hs (hpa ▸ hA))
  have hpos : step (seekEffect s.accept) = .next (posEffect (seekEffect s.accept).accept) :=
    (step_word (s := seekEffect s.accept) hf hq hqw).trans
      (exec_pos (s := (seekEffect s.accept).accept) hf hs)
  exact ⟨_, _, hseek, hpos, congrArg some hpa⟩

/-- Settles O45: each READ finds four bytes left and moves the cursor past them. -/
theorem twoReadsConsumeAnEightByteBuffer : Obligations.TwoReadsConsumeAnEightByteBuffer := by
  unfold Obligations.TwoReadsConsumeAnEightByteBuffer
  intro s p q hf hs hsize hpos hbase hbase4 hp hq hpw hqw
  have hread : step s = .next (readEffect .u32 s.accept) :=
    (step_word hf hp hpw).trans (exec_read (s := s.accept) hf rfl hs
      (by simp [State.remaining, hsize, hpos, Tag.byteLen]) (by simpa [State.cursor, hpos] using hbase))
  have hnext := (effectOf_program_getElem? (.read .u32) s.accept 0).trans hq
  obtain ⟨hfatal₁, hsession₁, hbase₁, hsize₁, -, hpos₁, hrsp₁⟩ := readEffect_session .u32 s.accept
  change (readEffect .u32 s.accept).program[(readEffect .u32 s.accept).index]? = _ at hnext
  generalize readEffect .u32 s.accept = t at *
  have hpos₁ : t.pos = 4 := by simpa [hpos, Tag.byteLen] using hpos₁
  have hsize₁ : t.size = 8 := hsize₁.trans hsize
  have hread' : step t = .next (readEffect .u32 t.accept) :=
    (step_word (hfatal₁.trans hf) hnext hqw).trans (exec_read (s := t.accept) (hfatal₁.trans hf) rfl
      (hsession₁.trans hs) (by simp [State.remaining, hsize₁, hpos₁, Tag.byteLen])
      (by simpa [State.cursor, hpos₁, hbase₁] using hbase4))
  obtain ⟨hfatal₂, -, -, hsize₂, -, hpos₂, hrsp₂⟩ := readEffect_session .u32 t.accept
  refine ⟨t, _, hread, hrsp₁, hread', hrsp₂, hfatal₂.trans (hfatal₁.trans hf), ?_, hsize₂.trans hsize₁⟩
  rw [hpos₂, State.accept_pos, hpos₁]
  rfl

/-- Settles O48: the reader session decodes the bytes the writer session has stored. -/
theorem writtenValueIsReadBack : Obligations.WrittenValueIsReadBack := by
  unfold Obligations.WrittenValueIsReadBack
  intro s g e p q r v hf hm hp hq hr hv hpw hqw hrw hvw hA hB hra hrb
  obtain ⟨t₁, t₂, hopenw, hrsp₁, hwrite, hrsp₂, hf₂, hm₂, hprogram, hindex, hstores⟩ :=
    openw_write hf hp hq hpw hqw hA hB
  obtain ⟨t₃, u, hopenr, hrsp₃, hread, hf₄, hsession, hbase, hsize, horder, hpos, hrsp₄⟩ :=
    openr_read hf₂ (by rwa [hprogram, hindex]) (by rwa [hprogram, hindex]) hrw hvw (hra ▸ hA) (hrb ▸ hB)
      (hm₂.trans hm)
  rw [hra, decodeBytes_stored hstores (hm₂.trans hm)] at hrsp₄
  exact ⟨t₁, t₂, t₃, u, hopenw, hrsp₁, hwrite, hrsp₂, hopenr, hrsp₃, hread, hsession, horder, hbase.trans hra,
    hsize.trans hrb, hpos, hf₄, fun h => hrsp₄.trans (congrArg some (spell_of_representable h)), hrsp₄⟩

/-- Settles O49: with no mutated view, a read is a read of the memory. -/
theorem readReturnsTheLastWrite : Obligations.ReadReturnsTheLastWrite := by
  unfold Obligations.ReadReturnsTheLastWrite
  exact fun s a c b hm => byteAt_memWrite_of_unmutated hm a c b
end

section
/-!
The accesses and the response of a command, said once for all commands (R52, R59, R72, R241).
-/
namespace Sys2Proof.Machine

/-! ### Lists of accesses -/

@[simp] theorem filter_reads_readsFrom (a : Word) (n : Nat) :
    ((readsFrom a n).filter fun x => !x.isWrite) = readsFrom a n := by
  simp [readsFrom, List.filter_eq_self]

@[simp] theorem filter_writes_readsFrom (a : Word) (n : Nat) : ((readsFrom a n).filter fun x => x.isWrite) = [] := by
  simp [readsFrom]

@[simp] theorem filter_reads_writesFrom (a : Word) (bs : List Byte) :
    ((writesFrom a bs).filter fun x => !x.isWrite) = [] := by
  induction bs generalizing a with
  | nil => rfl
  | cons b bs ih => simp [writesFrom_cons, ih]

@[simp] theorem filter_writes_writesFrom (a : Word) (bs : List Byte) :
    ((writesFrom a bs).filter fun x => x.isWrite) = writesFrom a bs := by
  induction bs generalizing a with
  | nil => rfl
  | cons b bs ih => simp [writesFrom_cons, List.filter_cons, ih]

@[simp] theorem filter_reads_copiesFrom (src dst : Word) (bs : List Byte) :
    ((copiesFrom src dst bs).filter fun x => !x.isWrite) = readsFrom src bs.length := by
  induction bs generalizing src dst with
  | nil => rfl
  | cons b bs ih => simp [copiesFrom_cons, readsFrom_succ, ih]

@[simp] theorem filter_writes_copiesFrom (src dst : Word) (bs : List Byte) :
    ((copiesFrom src dst bs).filter fun x => x.isWrite) = writesFrom dst bs := by
  induction bs generalizing src dst with
  | nil => rfl
  | cons b bs ih => simp [copiesFrom_cons, writesFrom_cons, List.filter_cons, ih]

@[simp] theorem map_address_readsFrom (a : Word) (n : Nat) :
    (readsFrom a n).map Access.address = (List.range n).map (addr a) := by
  simp [readsFrom]

@[simp] theorem map_address_writesFrom (a : Word) (bs : List Byte) :
    (writesFrom a bs).map Access.address = (List.range bs.length).map (addr a) := by
  induction bs generalizing a with
  | nil => rfl
  | cons b bs ih => simp [writesFrom_cons, ih, List.range_succ_eq_map, Function.comp_def, addr_succ]

@[simp] theorem length_readsFrom (a : Word) (n : Nat) : (readsFrom a n).length = n := by simp [readsFrom]

@[simp] theorem length_writesFrom (a : Word) (bs : List Byte) : (writesFrom a bs).length = bs.length := by
  simp [writesFrom]

/-- A slice of at most 2^64 bytes does not meet itself. -/
theorem nodup_addr (a : Word) {n : Nat} (hn : n ≤ 2 ^ 64) : ((List.range n).map (addr a)).Nodup := by
  refine (List.nodup_map_iff_inj_on List.nodup_range).mpr fun i hi j hj h => ?_
  rw [List.mem_range] at hi hj
  exact addr_inj (by omega) (by omega) h

theorem exists_offset_of_address {l : List Access} {a : Word} {n : Nat}
    (hl : l.map Access.address = (List.range n).map (addr a)) {x : Access} (hx : x ∈ l) :
    ∃ j < n, x.address = addr a j := by
  have haddress : x.address ∈ (List.range n).map (addr a) := hl ▸ List.mem_map_of_mem hx
  simpa [eq_comm] using haddress

/-- A byte that a store changes is one of those it wrote. -/
theorem exists_write_of_changed {m m' : Memory} {a c : Word} {bs : List Byte} (h : StoresExactly m m' a bs)
    (hc : m'.read c ≠ m.read c) : ∃ x ∈ writesFrom a bs, x.address = c := by
  have hinside : ∃ j < bs.length, addr a j = c := by
    by_contra hout
    exact hc (h.2 c fun j hj heq => hout ⟨j, hj, heq.symm⟩)
  have haddress : c ∈ (writesFrom a bs).map Access.address := by simpa using hinside
  exact List.mem_map.mp haddress

/-! ### The accesses of a command -/

/-- The slice a completing command reads: its address and its number of bytes (R241). -/
def readsOf : Command → State → Word × Nat
  | .cget t _, s => (s.operandA, t.byteLen)
  | .read t, s => (s.cursor, t.byteLen)
  | .readb, s => (s.cursor, s.operandB.toNat)
  | .writeb, s => (s.operandA, s.operandB.toNat)
  | _, _ => (0, 0)

/-- The slice a completing command writes: its address and its number of bytes (R241). -/
def writesOf : Command → State → Word × Nat
  | .cput t _, s => (s.operandA, t.byteLen)
  | .write t, s => (s.cursor, t.byteLen)
  | .readb, s => (s.operandA, s.operandB.toNat)
  | .writeb, s => (s.cursor, s.operandB.toNat)
  | _, _ => (0, 0)

theorem readsOf_le (c : Command) (s : State) : (readsOf c s).2 ≤ 2 ^ 64 := by
  cases c with
  | cget t _ | read t => have hlen := Tag.byteLen_pos t; simp only [readsOf]; omega
  | readb | writeb => simp only [readsOf]; omega
  | cput | write | openr | openw | size | pos | seek => simp [readsOf]

theorem writesOf_le (c : Command) (s : State) : (writesOf c s).2 ≤ 2 ^ 64 := by
  cases c with
  | cput t _ | write t => have hlen := Tag.byteLen_pos t; simp only [writesOf]; omega
  | readb | writeb => simp only [writesOf]; omega
  | cget | read | openr | openw | size | pos | seek => simp [writesOf]

/-- Between two states a command has read its slice and written some bytes over its other slice, each in ascending
order, and stored exactly those. -/
structure Accessed (c : Command) (s t : State) (bs : List Byte) : Prop where
  length : bs.length = (writesOf c s).2
  reads : (t.accesses.filter fun x => !x.isWrite) = readsFrom (readsOf c s).1 (readsOf c s).2
  writes : (t.accesses.filter fun x => x.isWrite) = writesFrom (writesOf c s).1 bs
  stores : StoresExactly s.mem t.mem (writesOf c s).1 bs

theorem effectOf_accessed (c : Command) {s : State} (hs : s.accesses = []) :
    ∃ bs, Accessed c s (effectOf c s) bs := by
  cases c with
  | cget t e =>
    refine ⟨[], rfl, ?_, ?_, ?_⟩ <;> rw [effectOf, cgetEffect_eq]
    · simp [hs, readsOf]
    · simp [hs, writesFrom]
    · exact StoresExactly.nil _ _
  | read t =>
    refine ⟨[], rfl, ?_, ?_, ?_⟩ <;> rw [effectOf, readEffect_eq]
    · simp [hs, readsOf]
    · simp [hs, writesFrom]
    · exact StoresExactly.nil _ _
  | cput t e =>
    obtain ⟨hstores, heq⟩ := cputEffect_spec t e s
    refine ⟨encodeBytes e t s.operandB, by simp [writesOf], ?_, ?_, hstores⟩ <;> rw [effectOf, heq]
    · simp [hs, readsOf, readsFrom]
    · simp [hs, writesOf]
  | write t =>
    obtain ⟨hstores, heq⟩ := writeEffect_spec t s
    refine ⟨encodeBytes s.order t s.operandB, by simp [writesOf], ?_, ?_, hstores⟩ <;> rw [effectOf, heq]
    · simp [hs, readsOf, readsFrom]
    · simp [hs, writesOf]
  | readb =>
    obtain ⟨bs, hlen, -, hstores, heq⟩ := copyRespond_spec s s.cursor s.operandA
    refine ⟨bs, hlen, ?_, ?_, hstores⟩ <;> rw [effectOf, readbEffect, heq]
    · simp [hs, readsOf, hlen]
    · simp [hs, writesOf]
  | writeb =>
    obtain ⟨bs, hlen, -, hstores, heq⟩ := copyRespond_spec s s.operandA s.cursor
    refine ⟨bs, hlen, ?_, ?_, hstores⟩ <;> rw [effectOf, writebEffect, heq]
    · simp [hs, readsOf, hlen]
    · simp [hs, writesOf]
  | openr | openw | size | pos | seek =>
    refine ⟨[], rfl, ?_, ?_, StoresExactly.nil _ _⟩ <;>
      simp [effectOf, sizeEffect, posEffect, seekEffect, State.respond, hs, readsOf, readsFrom, writesFrom]

/-- An instruction halts with no access and no store, or completes with those of its command. -/
theorem exec_accessed {s t : State} {i : Instr} (hs : s.accesses = []) (h : exec i s = .next t) :
    (t.fatal = true ∧ t.accesses = [] ∧ t.mem = s.mem) ∨
      (t.fatal = false ∧ checkOf i.command s = none ∧ ∃ bs, Accessed i.command s t bs) := by
  obtain ⟨hf, ⟨v, -, rfl⟩ | ⟨hc, rfl⟩⟩ := exec_cases h
  · exact .inl ⟨rfl, hs, rfl⟩
  · exact .inr ⟨(effectOf_frame i.command s).1.trans hf, hc, effectOf_accessed i.command hs⟩

/-- An access of a completing command lies at an offset of the slice it reads, or of the slice it writes. -/
theorem Accessed.exists_offset {c : Command} {s t : State} {bs : List Byte} (h : Accessed c s t bs) {x : Access}
    (hx : x ∈ t.accesses) :
    (x.isWrite = false ∧ ∃ j < (readsOf c s).2, x.address = addr (readsOf c s).1 j) ∨
      (x.isWrite = true ∧ ∃ j < (writesOf c s).2, x.address = addr (writesOf c s).1 j) := by
  cases hw : x.isWrite
  · have hread : x ∈ t.accesses.filter fun x => !x.isWrite := List.mem_filter.mpr ⟨hx, by simp [hw]⟩
    rw [h.reads] at hread
    exact .inl ⟨rfl, exists_offset_of_address (map_address_readsFrom _ _) hread⟩
  · have hwrite : x ∈ t.accesses.filter fun x => x.isWrite := List.mem_filter.mpr ⟨hx, hw⟩
    rw [h.writes] at hwrite
    exact .inr ⟨rfl, h.length ▸ exists_offset_of_address (map_address_writesFrom _ _) hwrite⟩

/-- A slice at the cursor with room for it lies in the buffer (R53). -/
theorem exists_offset_in_buffer {s : State} {n : Nat} {a : Word} (hn : n ≤ s.remaining)
    (h : ∃ j < n, a = addr s.cursor j) : ∃ j < s.size.toNat, a = addr s.base j := by
  obtain ⟨j, hj, rfl⟩ := h
  rw [State.remaining] at hn
  refine ⟨s.pos.toNat + j, by omega, ?_⟩
  rw [addr, addr, State.cursor, BitVec.ofNat_add, BitVec.ofNat_toNat, BitVec.setWidth_eq, BitVec.add_assoc]

/-! ### Responses -/

/-- The response of a completing command, from its row of the opcode map (R72). -/
def responseOf : Command → State → Word
  | .cget t e, s => decodeBytes e t (s.bytesFrom s.operandA t.byteLen)
  | .read t, s => decodeBytes s.order t (s.bytesFrom s.cursor t.byteLen)
  | .size, s => s.size
  | .pos, s => s.pos
  | _, _ => 0

theorem effectOf_rsp (c : Command) (s : State) : (effectOf c s).rsp = some (responseOf c s) := by
  cases c with
  | cget t e => exact cgetEffect_rsp t e s
  | read t => exact readEffect_rsp t s
  | cput | write | openr | openw | readb | writeb | size | pos | seek => rfl

end Sys2Proof.Machine
end

section
/-!
The obligations on the accesses a command makes and on its response.
-/
open Sys2Proof Sys2Proof.Machine

/-- Settles O50: the lengths of the two slices of the command. -/
theorem accessCountsByCommand : Obligations.AccessCountsByCommand := by
  unfold Obligations.AccessCountsByCommand
  intro s t i hs h
  obtain ⟨hf, hnone, -⟩ | ⟨hf, -, bs, hacc⟩ := exec_accessed hs h
  · simp [hf, hnone]
  · rw [hacc.reads, hacc.writes, length_readsFrom, length_writesFrom, hacc.length, hf, if_neg Bool.false_ne_true]
    cases i.command <;> rfl

/-- Settles O51: neither slice of a command meets itself. -/
theorem noCommandRepeatsAnAccess : Obligations.NoCommandRepeatsAnAccess := by
  unfold Obligations.NoCommandRepeatsAnAccess
  intro s t i hs h
  obtain ⟨-, hnone, -⟩ | ⟨-, -, bs, hacc⟩ := exec_accessed hs h
  · simp [hnone]
  · rw [hacc.reads, hacc.writes, map_address_readsFrom, map_address_writesFrom, hacc.length]
    exact ⟨nodup_addr _ (readsOf_le _ _), nodup_addr _ (writesOf_le _ _)⟩

/-- Settles O52: an access is in one of the two slices of its command, and a slice at the cursor is in the buffer. -/
theorem accessesStayWhereTheRulesSay : Obligations.AccessesStayWhereTheRulesSay := by
  unfold Obligations.AccessesStayWhereTheRulesSay
  intro s t i _ hs h x hx
  obtain ⟨-, hnone, -⟩ | ⟨-, hc, bs, hacc⟩ := exec_accessed hs h
  · rw [hnone] at hx; cases hx
  · have hoffset := hacc.exists_offset hx
    have hroom := fun n => le_remaining_of_pass (c := i.command) (n := n) (s := s)
    generalize i.command = c at hoffset hc hroom ⊢
    cases c with
    | cget =>
      obtain hread | ⟨-, j, hj, -⟩ := hoffset
      · exact hread
      · cases hj
    | cput =>
      obtain ⟨-, j, hj, -⟩ | hwrite := hoffset
      · cases hj
      · exact hwrite
    | read t =>
      obtain ⟨hw, hread⟩ | ⟨-, j, hj, -⟩ := hoffset
      · exact ⟨hw, exists_offset_in_buffer (hroom _ rfl hc) hread⟩
      · cases hj
    | write t =>
      obtain ⟨-, j, hj, -⟩ | ⟨hw, hwrite⟩ := hoffset
      · cases hj
      · exact ⟨hw, exists_offset_in_buffer (hroom _ rfl hc) hwrite⟩
    | readb =>
      obtain ⟨hw, hread⟩ | ⟨hw, hwrite⟩ := hoffset <;> simp only [hw, if_true, Bool.false_eq_true, if_false]
      · exact exists_offset_in_buffer (hroom _ rfl hc) hread
      · exact hwrite
    | writeb =>
      obtain ⟨hw, hread⟩ | ⟨hw, hwrite⟩ := hoffset <;> simp only [hw, if_true, Bool.false_eq_true, if_false]
      · exact hread
      · exact exists_offset_in_buffer (hroom _ rfl hc) hwrite
    | openr | openw | size | pos | seek =>
      obtain ⟨-, j, hj, -⟩ | ⟨-, j, hj, -⟩ := hoffset <;> cases hj

/-- Settles O53: a command stores exactly the bytes it records writes of. -/
theorem memoryChangesOnlyByRecordedWrites : Obligations.MemoryChangesOnlyByRecordedWrites := by
  unfold Obligations.MemoryChangesOnlyByRecordedWrites
  intro s t i a hs h ha
  obtain ⟨-, -, hmem⟩ | ⟨-, -, bs, hacc⟩ := exec_accessed hs h
  · rw [hmem] at ha; exact absurd rfl ha
  · obtain ⟨x, hx, hxa⟩ := exists_write_of_changed hacc.stores ha
    rw [← hacc.writes, List.mem_filter] at hx
    exact ⟨x, hx.1, hx.2, hxa⟩

/-- Settles O54: a halt gives no response and an effect the one of its command. -/
theorem exactlyOneResponsePerCompletedCommand : Obligations.ExactlyOneResponsePerCompletedCommand := by
  unfold Obligations.ExactlyOneResponsePerCompletedCommand
  intro s t i h
  obtain ⟨hf, ⟨v, -, rfl⟩ | ⟨-, rfl⟩⟩ := exec_cases h
  · exact ⟨fun _ => ⟨rfl, rfl⟩, fun hrunning => by cases hrunning⟩
  · obtain ⟨hfatal, -, -, -, hindex, -⟩ := effectOf_frame i.command s
    refine ⟨fun hhalt => ?_, fun _ => ⟨hindex, (effectOf_rsp i.command s).trans ?_⟩⟩
    · rw [hfatal, hf] at hhalt; cases hhalt
    · cases i.command <;> rfl
end

section
/-!
What a command cannot see: changes of the state that no byte access notices, carried through every meaning
(10_state.md section 7, 30_encoding.md section 3, 41_cursor.md section 3).
-/
namespace Sys2Proof.Machine

/-- The outcome with its next state changed. -/
def mapNext (g : State → State) : Result → Result
  | .next t => .next (g t)
  | .fault r => .fault r
  | .refused r => .refused r

/-- Two states that an instruction checks alike and that its fatal entry and its effect take to changed states have the
same outcome but for the change. -/
theorem exec_eq_mapNext {i : Instr} {s s' : State} {g : State → State} (hf : s'.fatal = s.fatal)
    (hc : checkOf i.command s' = checkOf i.command s) (hraise : ∀ v, s'.raiseFatal v = g (s.raiseFatal v))
    (heff : checkOf i.command s = none → effectOf i.command s' = g (effectOf i.command s)) :
    exec i s' = mapNext g (exec i s) := by
  rw [exec_eq_runChecked, exec_eq_runChecked, runChecked, runChecked, hf, hc]
  cases s.fatal with
  | true => rfl
  | false =>
    cases hcheck : checkOf i.command s with
    | some v => simp only [Bool.false_eq_true, if_false, mapNext, hraise]
    | none => simp only [Bool.false_eq_true, if_false, mapNext, heff hcheck]

/-- A change of the state that the memory port, the response and the fatal entry do not notice. -/
structure Unseen (u : State → State) : Prop where
  byteAt : ∀ s a, (u s).byteAt a = s.byteAt a
  memRead : ∀ s a, ((u s).memRead a).2 = u (s.memRead a).2
  memWrite : ∀ s a b, (u s).memWrite a b = u (s.memWrite a b)
  respond : ∀ s v, (u s).respond v = u (s.respond v)
  raiseFatal : ∀ s v, (u s).raiseFatal v = u (s.raiseFatal v)
  fatal : ∀ s, (u s).fatal = s.fatal

section
variable {u : State → State} (hu : Unseen u)
include hu

theorem Unseen.readSlice (s : State) (n : Nat) (a : Word) :
    (u s).readSlice n a = ((s.readSlice n a).1, u (s.readSlice n a).2) := by
  induction n generalizing s a with
  | zero => rfl
  | succ n ih =>
    have hbyte : ((u s).memRead a).1 = (s.memRead a).1 := hu.byteAt s a
    simp only [State.readSlice, hu.memRead, ih, hbyte]

theorem Unseen.writeSlice (s : State) (bs : List Byte) (a : Word) :
    (u s).writeSlice bs a = u (s.writeSlice bs a) := by
  induction bs generalizing s a with
  | nil => rfl
  | cons b bs ih => rw [State.writeSlice, hu.memWrite, ih, State.writeSlice]

theorem Unseen.copySlice (s : State) (n : Nat) (src dst : Word) :
    (u s).copySlice n src dst = u (s.copySlice n src dst) := by
  induction n generalizing s src dst with
  | zero => rfl
  | succ n ih =>
    have hbyte : ((u s).memRead src).1 = (s.memRead src).1 := hu.byteAt s src
    simp only [State.copySlice, hu.memRead, hbyte, hu.memWrite, ih]

theorem Unseen.cgetEffect {s : State} (t : Tag) (e : ByteOrder) (hA : (u s).operandA = s.operandA) :
    cgetEffect t e (u s) = u (cgetEffect t e s) := by
  simp only [Machine.cgetEffect, hA, hu.readSlice, hu.respond]

theorem Unseen.cputEffect {s : State} (t : Tag) (e : ByteOrder) (hA : (u s).operandA = s.operandA)
    (hB : (u s).operandB = s.operandB) : cputEffect t e (u s) = u (cputEffect t e s) := by
  simp only [Machine.cputEffect, hA, hB, hu.writeSlice, hu.respond]

/-- An instruction does not see the change when its checks and its effect do not. -/
theorem Unseen.exec {s : State} {i : Instr} (hc : checkOf i.command (u s) = checkOf i.command s)
    (heff : effectOf i.command (u s) = u (effectOf i.command s)) : exec i (u s) = mapNext u (exec i s) :=
  exec_eq_mapNext (hu.fatal s) hc (hu.raiseFatal s) fun _ => heff

variable (hadvance : ∀ s n, (u s).advance n = u (s.advance n))
include hadvance

theorem Unseen.readEffect {s : State} (t : Tag) (hcursor : (u s).cursor = s.cursor) (horder : (u s).order = s.order) :
    readEffect t (u s) = u (readEffect t s) := by
  simp only [Machine.readEffect, hcursor, horder, hu.readSlice, hadvance, hu.respond]

theorem Unseen.writeEffect {s : State} (t : Tag) (hcursor : (u s).cursor = s.cursor)
    (horder : (u s).order = s.order) (hB : (u s).operandB = s.operandB) :
    writeEffect t (u s) = u (writeEffect t s) := by
  simp only [Machine.writeEffect, hcursor, horder, hB, hu.writeSlice, hadvance, hu.respond]

theorem Unseen.readbEffect {s : State} (hcursor : (u s).cursor = s.cursor) (hA : (u s).operandA = s.operandA)
    (hB : (u s).operandB = s.operandB) : readbEffect (u s) = u (readbEffect s) := by
  simp only [Machine.readbEffect, hcursor, hA, hB, hu.copySlice, hadvance, hu.respond]

theorem Unseen.writebEffect {s : State} (hcursor : (u s).cursor = s.cursor) (hA : (u s).operandA = s.operandA)
    (hB : (u s).operandB = s.operandB) : writebEffect (u s) = u (writebEffect s) := by
  simp only [Machine.writebEffect, hcursor, hA, hB, hu.copySlice, hadvance, hu.respond]

end

/-! ### The three changes -/

/-- The host's list replaced by another. -/
def withProgram (p : List HostAction) (s : State) : State := { s with program := p }

/-- Another value in ORDER. -/
def withOrder (o : ByteOrder) (s : State) : State := { s with order := o }

/-- Other values in the registers that describe a session. -/
def withView (o : ByteOrder) (b z p : Word) (s : State) : State := { s with order := o, base := b, size := z, pos := p }

theorem withProgram_unseen (p : List HostAction) : Unseen (withProgram p) := by
  constructor <;> intros <;> rfl

theorem withOrder_unseen (o : ByteOrder) : Unseen (withOrder o) := by
  constructor <;> intros <;> rfl

theorem withView_unseen (o : ByteOrder) (b z p : Word) : Unseen (withView o b z p) := by
  constructor <;> intros <;> rfl

/-- The operands on the port after the host's action at the index is replaced by another command. -/
theorem withProgram_operands {s : State} {c d : Transfer} (hp : s.program[s.index]? = some (.command c)) :
    (withProgram (s.program.set s.index (.command d)) s).operandA = d.a ∧
      (withProgram (s.program.set s.index (.command d)) s).operandB = d.b :=
  operands_of_command (s := withProgram (s.program.set s.index (.command d)) s)
    (List.getElem?_set_self (index_lt_of_getElem? hp))

/-- Whether the opcode map gives operand A a meaning (R77, R79). -/
def usesA : Command → Bool
  | .cget _ _ => true
  | .cput _ _ => true
  | .openr _ => true
  | .openw _ => true
  | .readb => true
  | .writeb => true
  | .seek => true
  | _ => false

/-- Whether the opcode map gives operand B a meaning (R77, R79). -/
def usesB : Command → Bool
  | .cput _ _ => true
  | .openr _ => true
  | .openw _ => true
  | .write _ => true
  | .readb => true
  | .writeb => true
  | _ => false

section
variable {c : Command} {p : List HostAction} {s : State}
  (hA : usesA c = true → (withProgram p s).operandA = s.operandA)
  (hB : usesB c = true → (withProgram p s).operandB = s.operandB)
include hA hB

theorem checkOf_withProgram : checkOf c (withProgram p s) = checkOf c s := by
  cases c with
  | cget | cput => exact congrArg nullCheck (hA rfl)
  | openr | openw => simp only [checkOf, openCheck, hA rfl, hB rfl]
  | readb | writeb => simp only [checkOf, bulkCheck, hB rfl]; rfl
  | seek => simp only [checkOf, seekCheck, hA rfl]; rfl
  | read | write | size | pos => rfl

theorem effectOf_withProgram : effectOf c (withProgram p s) = withProgram p (effectOf c s) := by
  have hu := withProgram_unseen p
  have hadvance : ∀ t n, (withProgram p t).advance n = withProgram p (t.advance n) := fun _ _ => rfl
  cases c with
  | cget t e => exact hu.cgetEffect t e (hA rfl)
  | cput t e => exact hu.cputEffect t e (hA rfl) (hB rfl)
  | openr e | openw e => simp only [effectOf, openEffect, hA rfl, hB rfl]; rfl
  | read t => exact hu.readEffect hadvance t rfl rfl
  | write t => exact hu.writeEffect hadvance t rfl rfl (hB rfl)
  | readb => exact hu.readbEffect hadvance rfl (hA rfl) (hB rfl)
  | writeb => exact hu.writebEffect hadvance rfl (hA rfl) (hB rfl)
  | seek => simp only [effectOf, seekEffect, hA rfl]; rfl
  | size | pos => rfl

end

/-- Other values in the registers that describe a session, where none is open. -/
def withClosedView (o : ByteOrder) (b z p : Word) (s : State) : State :=
  if s.session = .none then withView o b z p s else s

/-- With no session open, the codec commands and the openings do not look at the view, and the others fail. -/
theorem checkOf_withView {s : State} (c : Command) (o : ByteOrder) (b z p : Word) (hs : s.session = .none) :
    checkOf c (withView o b z p s) = checkOf c s := by
  have hclosed : ∀ t : State, t.session = .none → ∀ need, sessionCheck need t = some .noSession := fun t ht need => by
    rw [sessionCheck_eq_ite, if_pos ht]
  cases c with
  | cget | cput | openr | openw => rfl
  | read | write | readb | writeb | size | pos | seek =>
    rw [checkOf_of_sessionCheck rfl (hclosed s hs _), checkOf_of_sessionCheck rfl (hclosed (withView o b z p s) hs _)]

theorem effectOf_withView {c : Command} {s : State} (o : ByteOrder) (b z p : Word) (hs : s.session = .none)
    (hc : checkOf c s = none) : effectOf c (withView o b z p s) = withClosedView o b z p (effectOf c s) := by
  have hu := withView_unseen o b z p
  have hview := effectOf_view c s
  cases c with
  | cget t e => exact (hu.cgetEffect t e rfl).trans (if_pos ((hview rfl).1.trans hs)).symm
  | cput t e => exact (hu.cputEffect t e rfl rfl).trans (if_pos ((hview rfl).1.trans hs)).symm
  | openr | openw => rfl
  | read | write | readb | writeb | size | pos | seek => exact absurd hs (session_ne_none_of_pass rfl hc)

end Sys2Proof.Machine
end

section
/-!
The obligations on what a command does not depend on.
-/
open Sys2Proof Sys2Proof.Machine

/-- Settles O55: a command's checks and effect see the host's list through the operands they use alone. -/
theorem ignoredOperandsHaveNoEffect : Obligations.IgnoredOperandsHaveNoEffect := by
  unfold Obligations.IgnoredOperandsHaveNoEffect
  intro s i c a b hp hused
  obtain ⟨hA, hB⟩ := operands_of_command hp
  obtain ⟨hA', hB'⟩ := withProgram_operands (d := { c with a := a, b := b }) hp
  have hsame : (usesA i.command = true → a = c.a) ∧ (usesB i.command = true → b = c.b) := by
    generalize i.command = cmd at hused
    cases cmd <;> simp_all [usesA, usesB]
  have husedA := fun h => hA'.trans ((hsame.1 h).trans hA.symm)
  have husedB := fun h => hB'.trans ((hsame.2 h).trans hB.symm)
  refine ((withProgram_unseen _).exec (checkOf_withProgram husedA husedB)
    (effectOf_withProgram husedA husedB)).trans ?_
  cases exec i s <;> rfl

/-- Settles O56: with no session open, a command checks no view; it fails, keeps the view or replaces it. -/
theorem closedRegistersCannotBeObserved : Obligations.ClosedRegistersCannotBeObserved := by
  unfold Obligations.ClosedRegistersCannotBeObserved
  intro s i o b z p hs
  have hraise : ∀ v, (withView o b z p s).raiseFatal v = withClosedView o b z p (s.raiseFatal v) := fun v =>
    (if_pos (c := (s.raiseFatal v).session = .none) hs).symm
  refine (exec_eq_mapNext (s := s) (s' := withView o b z p s) rfl (checkOf_withView i.command o b z p hs) hraise
    (effectOf_withView o b z p hs)).trans ?_
  cases exec i s <;> rfl

/-- Settles O57: neither the check nor the effect of a bulk copy reads ORDER. -/
theorem bulkCopyIgnoresTheByteOrder : Obligations.BulkCopyIgnoresTheByteOrder := by
  unfold Obligations.BulkCopyIgnoresTheByteOrder
  intro s i o hi
  have hu := withOrder_unseen o
  have hmap : exec i (withOrder o s) = mapNext (withOrder o) (exec i s) := by
    obtain rfl | rfl := hi
    · exact hu.exec rfl (hu.readbEffect (fun _ _ => rfl) rfl rfl rfl)
    · exact hu.exec rfl (hu.writebEffect (fun _ _ => rfl) rfl rfl rfl)
  refine hmap.trans ?_
  cases exec i s <;> rfl
end

section
/-!
Runs and their ends (R232, R237): what a step adds to the record of mutated views, that a running block with an action
left has a step, and what a successful end says of the states before it.
-/
namespace Sys2Proof.Machine

/-! ### Mutated views (R232) -/

theorem State.byteAt_of_unsettled {s : State} {c : Word} (h : s.unsettled c = true) :
    s.byteAt c = Config.mutatedByte s.index c.toNat := by
  rw [State.byteAt, if_pos h]

theorem State.inBuffer_iff (s : State) (a : Word) :
    s.inBuffer a = true ↔ s.session ≠ .none ∧ (a - s.base).toNat < s.size.toNat := by
  rw [State.inBuffer, Bool.and_eq_true, decide_eq_true_eq, View.contains, decide_eq_true_eq]
  rfl

theorem State.unsettled_of_view_mem {s t : State} {c : Word} (hview : s.view ∈ t.mutated)
    (hc : (c - s.base).toNat < s.size.toNat) : t.unsettled c = true :=
  List.any_eq_true.mpr ⟨s.view, hview, decide_eq_true hc⟩

/-- The record of mutated views only grows. -/
theorem step_mutated_subset {s t : State} (h : step s = .next t) : s.mutated ⊆ t.mutated := by
  cases stepTo_of_step h with
  | idle | halts | illegal | reset | resetHalt | endBuffer => exact List.Subset.refl _
  | completes c i =>
    obtain ⟨-, -, -, hmutated, -⟩ := effectOf_frame i.command s.accept
    rw [hmutated]
    exact List.Subset.refl _
  | abort c => rw [State.abortCommand_eq]; exact List.Subset.refl _
  | store a b =>
    rw [State.platformStore_mutated]
    split
    · exact List.subset_cons_self _ _
    · exact List.Subset.refl _

theorem step_keeps_unsettled {s t : State} {c : Word} (hs : s.unsettled c = true) (h : step s = .next t) :
    t.unsettled c = true := by
  obtain ⟨v, hv, hc⟩ := List.any_eq_true.mp hs
  exact List.any_eq_true.mpr ⟨v, step_mutated_subset h hv, hc⟩

/-! ### Every action of a running block has its step (R237) -/

/-- An instruction has a next state on a running block: it halts, or advances the index. -/
theorem exec_progress {s : State} (i : Instr) (hf : s.fatal = false) :
    ∃ t, exec i s = .next t ∧ t.program = s.program ∧
      (t.fatal = true ∨ t.fatal = false ∧ t.index = s.index + 1) := by
  cases hc : checkOf i.command s with
  | some v => exact ⟨_, (exec_eq_raiseFatal_iff hf i v).mpr hc, rfl, .inl rfl⟩
  | none =>
    obtain ⟨hfatal, -, hprogram, -, hindex, -⟩ := effectOf_frame i.command s
    exact ⟨_, exec_of_pass hf hc, hprogram, .inr ⟨hfatal.trans hf, hindex⟩⟩

/-- With an action left and no buffer freed, a running block has a step, which halts it or does the action. -/
theorem step_progress {s : State} (hf : s.fatal = false) (hend : .endBuffer ∉ s.program)
    (hidx : s.index < s.program.length) :
    ∃ t, step s = .next t ∧ t.program = s.program ∧
      (t.fatal = true ∨ t.fatal = false ∧ t.index = s.index + 1) := by
  have hp := List.getElem?_eq_getElem hidx
  cases hx : s.program[s.index] with
  | command c =>
    rw [hx] at hp
    cases hd : decode c.word with
    | error r => exact ⟨_, step_illegal hf hp hd, rfl, .inl rfl⟩
    | ok i => rw [step_command hf hp hd]; exact exec_progress (s := s.accept) i hf
  | reset =>
    rw [hx] at hp
    exact ⟨_, step_reset hf hp, rfl, .inr ⟨rfl, by simp [hf]⟩⟩
  | abort c =>
    rw [hx] at hp
    refine ⟨_, step_abort hf hp, ?_, .inr ?_⟩ <;> rw [State.abortCommand_eq]
    · rfl
    · exact ⟨rfl, rfl⟩
  | store a b =>
    rw [hx] at hp
    exact ⟨_, step_store hf hp, rfl, .inr ⟨hf, rfl⟩⟩
  | endBuffer => exact absurd (hx ▸ List.getElem_mem hidx) hend

/-- A run reaches the halt or the end of the host's list in as many steps as there are actions left. -/
theorem run_reaches_end {n : Nat} {s : State} (hn : s.program.length - s.index = n) (hf : s.fatal = false)
    (hidx : s.index ≤ s.program.length) (hend : .endBuffer ∉ s.program) :
    ∃ k t, k ≤ n ∧ core.run k s = .next t ∧
      (t.fatal = true ∨ t.fatal = false ∧ t.index = t.program.length ∧
        (s.unanswered = [] → (∀ c, .abort c ∉ s.program) → t.unanswered = [])) := by
  induction n generalizing s with
  | zero => exact ⟨0, s, le_rfl, rfl, .inr ⟨hf, by omega, fun h _ => h⟩⟩
  | succ n ih =>
    obtain ⟨u, hstep, hprogram, hhalt | ⟨hrunning, hindex⟩⟩ := step_progress hf hend (by omega)
    · exact ⟨1, u, by omega, run_succ_eq_next_iff.mpr ⟨u, hstep, rfl⟩, .inl hhalt⟩
    · obtain ⟨k, t, hk, hrun, hreached⟩ :=
        ih (s := u) (by rw [hprogram, hindex]; omega) hrunning (by rw [hprogram, hindex]; omega) (hprogram ▸ hend)
      refine ⟨k + 1, t, by omega, run_succ_eq_next_iff.mpr ⟨u, hstep, hrun⟩, hreached.imp_right ?_⟩
      rintro ⟨hft, hdone, hanswered⟩
      refine ⟨hft, hdone, fun hs habort => hanswered ?_ (hprogram ▸ habort)⟩
      obtain ⟨hsame, -⟩ | ⟨-, hhalt | ⟨c, hc⟩⟩ := step_unanswered hstep
      · exact hsame.trans hs
      · rw [hf] at hhalt; cases hhalt
      · exact absurd (List.mem_of_getElem? hc) (habort c)

/-! ### What a successful end says of the run (R237) -/

/-- A run in two parts. -/
theorem run_split {j m : Nat} {s t u : State} (hj : core.run j s = .next u) (h : core.run (j + m) s = .next t) :
    core.run m u = .next t := by
  induction j generalizing s with
  | zero => cases hj; rwa [Nat.zero_add] at h
  | succ j ih =>
    obtain ⟨v, hv, hjv⟩ := run_succ_eq_next_iff.mp hj
    rw [Nat.add_right_comm] at h
    obtain ⟨w, hw, hrun⟩ := run_succ_eq_next_iff.mp h
    rw [hv] at hw
    cases hw
    exact ih hjv hrun

theorem running_of_answered_step {s t : State} (h : step s = .next t) (ht : t.unanswered = []) :
    s.fatal = false ∧ s.unanswered = [] ∧ ∀ c, s.program[s.index]? ≠ some (.abort c) := by
  obtain ⟨hsame, hf, habort⟩ | ⟨hcons, -⟩ := step_unanswered h
  · exact ⟨hf, hsame.symm.trans ht, habort⟩
  · rw [hcons] at ht; cases ht

/-- In a run that ends running and answered, every state is so: nothing leaves the halt unrecorded. -/
theorem running_of_succeeded {k : Nat} {s t : State} (h : core.run k s = .next t) (ht : t.Succeeded) :
    s.fatal = false ∧ s.unanswered = [] := by
  induction k generalizing s with
  | zero =>
    cases h
    obtain ⟨hf, -, hanswered⟩ := ht
    exact ⟨hf, hanswered⟩
  | succ k ih =>
    obtain ⟨u, hu, hrun⟩ := run_succ_eq_next_iff.mp h
    obtain ⟨hf, hanswered, -⟩ := running_of_answered_step hu (ih hrun).2
    exact ⟨hf, hanswered⟩

/-- A command whose step does not halt has responded. -/
theorem responds_of_running {s t : State} {c : Transfer} (hf : s.fatal = false)
    (hp : s.program[s.index]? = some (.command c)) (h : step s = .next t) (ht : t.fatal = false) :
    t.rsp.isSome = true := by
  cases stepTo_of_step h with
  | completes _ i =>
    obtain ⟨-, -, -, -, -, hrsp⟩ := effectOf_frame i.command s.accept
    exact hrsp
  | halts | illegal => cases ht
  | idle _ hp' | reset _ hp' | abort _ _ hp' | store _ _ _ hp' | endBuffer _ hp' => rw [hp] at hp'; cases hp'
  | resetHalt hhalt => rw [hf] at hhalt; cases hhalt

end Sys2Proof.Machine
end

section
/-!
The obligations on the host's duties and on the end of a run.
-/
open Sys2Proof Sys2Proof.Machine

/-- Settles O58: the store records the view, no step drops it, and a byte of a recorded view reads as a free value. -/
theorem foreignStoreUnsettlesTheBuffer : Obligations.ForeignStoreUnsettlesTheBuffer := by
  unfold Obligations.ForeignStoreUnsettlesTheBuffer
  refine ⟨fun s a b hf hp => ?_, fun k s t c h hs => ?_⟩
  · refine ⟨_, step_store hf hp, ⟨rfl, rfl, rfl, rfl, rfl, rfl, rfl⟩, rfl, rfl, rfl, fun hs ha c hc => ?_,
      fun hout => ?_⟩
    · have hin : s.accept.inBuffer a = true := (State.inBuffer_iff _ _).mpr ⟨hs, ha⟩
      refine State.byteAt_of_unsettled (State.unsettled_of_view_mem (s := s.accept) ?_ hc)
      rw [State.platformStore_mutated, if_pos hin]
      exact List.mem_cons_self
    · have hin : ¬ s.accept.inBuffer a = true := fun h => by
        obtain ⟨hs, ha⟩ := (State.inBuffer_iff _ _).mp h
        exact hout.elim hs (Nat.not_le.mpr ha)
      rw [State.platformStore_mutated, if_neg hin]
      rfl
  · have ht := run_keeps (P := fun u => u.unsettled c = true) (fun _ _ => step_keeps_unsettled) hs h
    exact ⟨ht, State.byteAt_of_unsettled ht⟩

/-- Settles O60: a run reaches one of its ends, and the record of unanswered commands tells which. -/
theorem runEndsSuccessfullyOrFaulted : Obligations.RunEndsSuccessfullyOrFaulted := by
  unfold Obligations.RunEndsSuccessfullyOrFaulted
  refine ⟨fun s hinv hf hend => ?_, fun k s t h ht => ?_, fun t ⟨hsucceeded, hfaulted⟩ => ?_⟩
  · obtain ⟨-, -, -, -, hidx, -⟩ := hinv
    obtain ⟨k, t, hk, hrun, hfaulted | ⟨hft, hdone, hanswered⟩⟩ := run_reaches_end rfl hf hidx hend
    · exact ⟨k, t, hk, hrun, .inr (.inl hfaulted), fun _ _ => .inr hfaulted⟩
    · refine ⟨k, t, hk, hrun, ?_, fun hs habort => .inl ⟨hft, hdone, hanswered hs habort⟩⟩
      by_cases hun : t.unanswered = []
      · exact .inl ⟨hft, hdone, hun⟩
      · exact .inr (.inr ⟨hft, hdone, hun⟩)
  · refine ⟨(running_of_succeeded h ht).2, fun j u hj hu => ?_⟩
    obtain ⟨m, rfl⟩ : ∃ m, k = j + (m + 1) := ⟨k - j - 1, by omega⟩
    obtain ⟨v, hv, hrest⟩ := run_succ_eq_next_iff.mp (run_split hu h)
    obtain ⟨hvrunning, hvanswered⟩ := running_of_succeeded hrest ht
    obtain ⟨hf, -, habort⟩ := running_of_answered_step hv hvanswered
    exact ⟨hf, habort, fun c hc => ⟨v, hv, responds_of_running hf hc hv hvrunning⟩⟩
  · exact Bool.false_ne_true (hsucceeded.1.symm.trans hfaulted)
end

section
/-!
Which causes a command can raise (R191): for each cause of its row a state of the invariant raises it.
-/
namespace Sys2Proof.Machine

/-- A running state of the invariant in which a command fails with a cause. -/
def CanRaise (c : Command) (v : Cause) : Prop := ∃ s : State, s.Inv ∧ s.fatal = false ∧ checkOf c s = some v

theorem exists_halt_iff_canRaise (i : Instr) (v : Cause) :
    (∃ s t : State, s.Inv ∧ s.fatal = false ∧ exec i s = .next t ∧ t.fatal = true ∧ t.cause = v) ↔
      CanRaise i.command v := by
  constructor
  · rintro ⟨s, t, hinv, hf, h, ht, rfl⟩
    exact ⟨s, hinv, hf, checkOf_of_exec_fatal h ht⟩
  · rintro ⟨s, hinv, hf, hc⟩
    exact ⟨s, _, hinv, hf, (exec_eq_raiseFatal_iff hf i v).mpr hc, rfl, rfl⟩

/-! ### The states that raise each cause -/

/-- The block after reset, offered a command with the given operands. -/
def closedWith (a b : Word) : State := { State.reset with program := [.command { word := 0, a := a, b := b }] }

/-- A session over a view, with its cursor, offered a command with the given operands. -/
def openWith (k : Session) (base size pos a b : Word) : State :=
  { closedWith a b with session := k, base := base, size := size, pos := pos }

theorem closedWith_inv (a b : Word) : (closedWith a b).Inv :=
  State.inv_of_registersReset ⟨rfl, rfl, rfl, rfl, rfl, rfl, rfl⟩ rfl (Nat.zero_le _)

theorem openWith_inv {k : Session} {base size pos : Word} (a b : Word) (hk : k ≠ .none) (hbase : base ≠ 0)
    (hsize : size ≠ 0) (hpos : pos.toNat ≤ size.toNat) : (openWith k base size pos a b).Inv :=
  ⟨fun _ => ⟨hbase, hsize, hpos⟩, fun h => absurd h hk, by simp [openWith, closedWith, State.reset], rfl,
    Nat.zero_le _, by rintro ⟨⟩⟩

/-- With no session open, every stream command fails. -/
theorem canRaise_noSession {c : Command} {need : Need} (h : needOf c = some need) : CanRaise c .noSession :=
  ⟨closedWith 0 0, closedWith_inv 0 0, rfl, checkOf_of_sessionCheck h rfl⟩

/-- A session that a need accepts, and one it does not. -/
theorem exists_sessions {need : Need} (h : need ≠ .either) :
    ∃ k k' : Session, k ≠ .none ∧ k' ≠ .none ∧ (∀ s : State, s.session = k → sessionCheck need s = none) ∧
      ∀ s : State, s.session = k' → sessionCheck need s = some .wrongSession := by
  cases need with
  | reader => exact ⟨.reader, .writer, by decide, by decide, fun _ => sessionCheck_reader,
      fun s hs => by simp [sessionCheck, hs]⟩
  | writer => exact ⟨.writer, .reader, by decide, by decide, fun _ => sessionCheck_writer,
      fun s hs => by simp [sessionCheck, hs]⟩
  | either => exact absurd rfl h

theorem canRaise_wrongSession {c : Command} {need : Need} (h : needOf c = some need) (hneed : need ≠ .either) :
    CanRaise c .wrongSession := by
  obtain ⟨-, k, -, hk, -, hwrong⟩ := exists_sessions hneed
  exact ⟨openWith k 1 1 0 0 0, openWith_inv 0 0 hk (by decide) (by decide) (by decide), rfl,
    checkOf_of_sessionCheck h (hwrong _ rfl)⟩

/-- At the end of its view a session has no byte left for a typed access. -/
theorem canRaise_capacity_of_typed {c : Command} {need : Need} {g : Tag} (h : ∀ s, checkOf c s = typedCheck need g s)
    (hneed : need ≠ .either) : CanRaise c .capacity := by
  obtain ⟨k, -, hk, -, hright, -⟩ := exists_sessions hneed
  refine ⟨openWith k 1 1 1 0 0, openWith_inv 0 0 hk (by decide) (by decide) (by decide), rfl, (h _).trans ?_⟩
  exact typedCheck_capacity (hright _ rfl) (Tag.byteLen_pos g).1

/-- At the end of its view a session has no byte left for a bulk copy of one. -/
theorem canRaise_capacity_of_bulk {c : Command} {need : Need} (h : ∀ s, checkOf c s = bulkCheck need s)
    (hneed : need ≠ .either) : CanRaise c .capacity := by
  obtain ⟨k, -, hk, -, hright, -⟩ := exists_sessions hneed
  refine ⟨openWith k 1 1 1 0 1, openWith_inv 0 1 hk (by decide) (by decide) (by decide), rfl, (h _).trans ?_⟩
  exact bulkCheck_capacity (hright _ rfl) Nat.one_pos

/-- Eight bytes below the top of the address space and eight above it: the cursor in the middle stands at 0. -/
theorem canRaise_nullPointer_of_typed {c : Command} {need : Need} {g : Tag}
    (h : ∀ s, checkOf c s = typedCheck need g s) (hneed : need ≠ .either) : CanRaise c .nullPointer := by
  obtain ⟨k, -, hk, -, hright, -⟩ := exists_sessions hneed
  refine ⟨openWith k (-8) 16 8 0 0, openWith_inv 0 0 hk (by decide) (by decide) (by decide), rfl, (h _).trans ?_⟩
  exact (typedCheck_eq_nullCheck (hright _ rfl) (Tag.byteLen_pos g).2).trans
    ((nullCheck_eq_nullPointer_iff _).mpr (by simp [State.cursor, openWith]))

theorem canRaise_of_mem {c : Command} {v : Cause} (h : v ∈ causesOf c) : CanRaise c v := by
  cases c with
  | cget | cput =>
    obtain rfl := List.mem_singleton.mp h
    exact ⟨closedWith 0 0, closedWith_inv 0 0, rfl, rfl⟩
  | openr | openw =>
    simp only [causesOf, List.mem_cons, List.not_mem_nil, or_false] at h
    obtain rfl | rfl := h
    · exact ⟨closedWith 0 0, closedWith_inv 0 0, rfl, rfl⟩
    · exact ⟨closedWith 1 0, closedWith_inv 1 0, rfl, rfl⟩
  | read | write =>
    simp only [causesOf, List.mem_cons, List.not_mem_nil, or_false] at h
    obtain rfl | rfl | rfl | rfl := h
    · exact canRaise_noSession rfl
    · exact canRaise_wrongSession rfl (by decide)
    · exact canRaise_nullPointer_of_typed (fun _ => rfl) (by decide)
    · exact canRaise_capacity_of_typed (fun _ => rfl) (by decide)
  | readb | writeb =>
    simp only [causesOf, List.mem_cons, List.not_mem_nil, or_false] at h
    obtain rfl | rfl | rfl := h
    · exact canRaise_noSession rfl
    · exact canRaise_wrongSession rfl (by decide)
    · exact canRaise_capacity_of_bulk (fun _ => rfl) (by decide)
  | size | pos =>
    obtain rfl := List.mem_singleton.mp h
    exact canRaise_noSession rfl
  | seek =>
    simp only [causesOf, List.mem_cons, List.not_mem_nil, or_false] at h
    obtain rfl | rfl := h
    · exact canRaise_noSession rfl
    · exact ⟨openWith .reader 1 1 0 2 0, openWith_inv 2 0 (by decide) (by decide) (by decide) (by decide), rfl, rfl⟩

theorem canRaise_iff_mem (c : Command) (v : Cause) : CanRaise c v ↔ v ∈ causesOf c :=
  ⟨fun ⟨_, _, _, h⟩ => mem_causesOf_of_check h, canRaise_of_mem⟩

/-! ### NULL_POINTER of a typed access, and illegal words -/

/-- A typed access finds its slice address null only in a session, with the cursor at 0 (R150, R155). -/
theorem session_and_cursor_of_typedCheck_nullPointer {need : Need} {g : Tag} {s : State}
    (h : typedCheck need g s = some .nullPointer) : s.session ≠ .none ∧ s.cursor = 0 := by
  have hsession : sessionCheck need s ≠ some .nullPointer := by unfold sessionCheck; split <;> simp
  have hcapacity : capacityCheck g.byteLen s ≠ some .nullPointer := by unfold capacityCheck; split <;> simp
  obtain hbad | ⟨hs, hrest⟩ := Option.or_eq_some_iff.mp h
  · exact absurd hbad hsession
  obtain hbad | ⟨-, hnull⟩ := Option.or_eq_some_iff.mp hrest
  · exact absurd hbad hcapacity
  exact ⟨((sessionCheck_eq_none need s).mp hs).1, (nullCheck_eq_nullPointer_iff _).mp hnull⟩

/-- From a nonzero BASE, the cursor reaches 0 only across the top of the address space. -/
theorem toNat_add_of_cursor_eq_zero {s : State} (hbase : s.base ≠ 0) (h : s.cursor = 0) :
    s.base.toNat + s.pos.toNat = 2 ^ 64 := by
  have hsum : (s.base.toNat + s.pos.toNat) % 2 ^ 64 = 0 := by simpa [State.cursor] using congrArg BitVec.toNat h
  have hne : s.base.toNat ≠ 0 := fun hzero => hbase (BitVec.eq_of_toNat_eq hzero)
  omega

/-- Every operation code has a word with a reserved bit set (R76). -/
theorem exists_illegal_word (op : BitVec 4) :
    ((1 : BitVec 23) ++ (0 : BitVec 5) ++ op).extractLsb' 0 4 = op ∧
      decode ((1 : BitVec 23) ++ (0 : BitVec 5) ++ op) = .error .reservedBits := by
  revert op; decide

end Sys2Proof.Machine
end

section
/-!
The obligation on the causes of R191.
-/
open Sys2Proof Sys2Proof.Machine

/-- Settles O25: the violations of a command are those of its row, and each has a state that meets the invariant. -/
theorem causesEachCommandCanRaise : Obligations.CausesEachCommandCanRaise := by
  unfold Obligations.CausesEachCommandCanRaise
  refine ⟨fun i v => ?_, fun s t i g hinv hi h ht => ?_, fun op _ => ⟨_, _, exists_illegal_word op⟩⟩
  · rw [exists_halt_iff_canRaise, canRaise_iff_mem]
    cases i.command <;> rfl
  · obtain ⟨hview, -, hcause, -⟩ := hinv
    obtain ⟨hf, ⟨v, hc, rfl⟩ | ⟨-, rfl⟩⟩ := exec_cases h
    · obtain rfl : v = .nullPointer := ht
      have hnull : ∃ need, typedCheck need g s = some .nullPointer := by
        obtain hi | hi := hi <;> rw [hi] at hc <;> exact ⟨_, hc⟩
      obtain ⟨need, hnull⟩ := hnull
      obtain ⟨hs, hcursor⟩ := session_and_cursor_of_typedCheck_nullPointer hnull
      exact toNat_add_of_cursor_eq_zero (hview hs).1 hcursor
    · rw [(effectOf_frame i.command s).2.1, hcause.mp hf] at ht
      cases ht
end
